-- ==== Sys2Proof/Word.lean ====
section
/-! DEFINITION. The engine's data types: every value is an unsigned integer of a stated width (R10), a byte
sequence is a list of bytes with byte 0 first (R9, R12), and a command is the pair of words that travels on the
command channel (R70). -/

namespace Sys2Proof

/-- `u8`, one byte of a byte sequence (R10). -/
abbrev Byte := BitVec 8

/-- `u32`: the command word, the status word and the 32-bit codec's operand (R8, R10). -/
abbrev HalfWord := BitVec 32

/-- `u64`: chaining, schedule and working words, the counter's halves, the DATA operand (R8, R10). -/
abbrev Word := BitVec 64

/-- An offset `0..127` into the pending buffer; seven bits, so no other offset exists (R26, R27, R51). -/
abbrev Offset := BitVec 7

/-- `zeros(n)`: `n` bytes of `0x00` (R12). -/
def zeros (n : Nat) : List Byte := List.replicate n 0#8

/-- One item of the command channel: the pair `(CMD, DATA)` of R70. Both travel as whole words (R53). -/
structure Command where
  /-- The 32-bit command word (R71). -/
  cmd : HalfWord
  /-- The 64-bit operand (R74). -/
  data : Word
  deriving DecidableEq, Repr

end Sys2Proof
end

