-- ==== Sys2Proof/Machine/Codec.lean ====
section
/-! DEFINITION. The Byte-Order Codec: four pure functions, no state, no failure (R100). Byte 0 of a sequence is the
most significant byte of the word (R9, R101). -/

namespace Sys2Proof.Machine

/-- Byte `k` of the big-endian encoding of a 64-bit word: bits `63-8k` down to `56-8k` (R101). -/
def wordByte (v : Word) (k : Nat) : Byte := v.extractLsb' (56 - 8 * k) 8

/-- `Enc64`: eight bytes, the most significant first (R101). -/
def enc64 (v : Word) : List Byte := (List.range 8).map (wordByte v)

/-- What byte `k` of a sequence contributes to `Dec64`: `b[k] * 2^(56 - 8k)` (R102). -/
def dec64Term (b : List Byte) (k : Nat) : Word := (b.getD k 0#8).setWidth 64 <<< (56 - 8 * k)

/-- `Dec64`: the sum of the eight terms of R102. Every call passes exactly eight bytes (R107); a shorter list would
read as if filled up with zero bytes (log entry 18). -/
def dec64 (b : List Byte) : Word := ((List.range 8).map (dec64Term b)).sum

/-- Byte `k` of the big-endian encoding of a 32-bit word: bits `31-8k` down to `24-8k` (R104). -/
def halfWordByte (v : HalfWord) (k : Nat) : Byte := v.extractLsb' (24 - 8 * k) 8

/-- `Enc32`: four bytes, the most significant first (R104, C1). No command reaches it (R107; log entry 18). -/
def enc32 (v : HalfWord) : List Byte := (List.range 4).map (halfWordByte v)

/-- What byte `k` of a sequence contributes to `Dec32`: `b[k] * 2^(24 - 8k)` (R105). -/
def dec32Term (b : List Byte) (k : Nat) : HalfWord := (b.getD k 0#8).setWidth 32 <<< (24 - 8 * k)

/-- `Dec32`: the sum of the four terms of R105, for exactly four bytes. -/
def dec32 (b : List Byte) : HalfWord := ((List.range 4).map (dec32Term b)).sum

end Sys2Proof.Machine
end

