-- ==== Sys2Proof/Syntax.lean ====
section
/-! DEFINITION. The instructions: one constructor for each row of spec/opcode_table.json (R72, R83). -/

namespace Sys2Proof

/-- The four commands of the engine (R72). DATA is an operand of UPDATE alone: STATUS, INIT and FINALIZE ignore
it entirely (R74), so their constructors do not carry it (log entry 8). -/
inductive Instr where
  /-- STATUS: report phase and cause (R162). -/
  | status
  /-- INIT: create a fresh context (R163). -/
  | init
  /-- UPDATE: deliver the first `n` bytes of `Enc64(data)` (R73, R74, R164). `n` is the field NB as it stands,
  four bits wide; a legal UPDATE has `n <= 8`. -/
  | update (n : BitVec 4) (data : Word)
  /-- FINALIZE: consume the context and return the digest (R170). -/
  | finalize
  deriving DecidableEq, Repr

end Sys2Proof
end

