-- ==== Sys2Proof/WellFormed.lean ====
section
/-! DEFINITION. Which instructions a legal command word can stand for (R73, R75). -/

namespace Sys2Proof

/-- The one check on an instruction's operands: an UPDATE delivers at most eight bytes (R73). -/
def Instr.wellFormed : Instr → Bool
  | .status => true
  | .init => true
  | .update n _ => decide (n ≤ 8#4)
  | .finalize => true

end Sys2Proof
end

