-- ==== Sys2Proof/Decode.lean ====
section
/-! DEFINITION. The command word: its fields (R71), which words are legal (R75), the decoder, which names why it
rejects a word, the opcode map (R83), and the encoder (R80). Everything here depends on the command alone, never
on the engine's state (R75). -/

namespace Sys2Proof

/-! ### Fields of CMD (R71) -/

/-- OP = CMD[3:0]. -/
def opField (c : HalfWord) : BitVec 4 := c.extractLsb' 0 4

/-- RSV0 = CMD[7:4], reserved, must be 0. -/
def rsv0Field (c : HalfWord) : BitVec 4 := c.extractLsb' 4 4

/-- NB = CMD[11:8], the byte count of an UPDATE; unsigned, neither extended nor scaled (R73). -/
def nbField (c : HalfWord) : BitVec 4 := c.extractLsb' 8 4

/-- RSV1 = CMD[31:12], reserved, must be 0. -/
def rsv1Field (c : HalfWord) : BitVec 20 := c.extractLsb' 12 20

/-! ### Legality (R75) -/

/-- `legal(CMD)` of R75, as it stands there. -/
def legal (c : HalfWord) : Bool :=
  decide (rsv1Field c = 0#20) && decide (rsv0Field c = 0#4) &&
    ((decide (opField c = 2#4) && decide (nbField c ≤ 8#4)) ||
      ((decide (opField c = 0#4) || decide (opField c = 1#4) || decide (opField c = 3#4)) &&
        decide (nbField c = 0#4)))

/-! ### Decoder -/

/-- Why the decoder rejects a command word: the four cases of R76. -/
inductive DecodeError where
  /-- A nonzero RSV0 or RSV1 bit (R76). -/
  | reservedBits
  /-- OP in 0x4..0xF (R72, R76). -/
  | reservedOp
  /-- UPDATE with NB in 9..15 (R73, R76). -/
  | byteCountTooLarge
  /-- NB other than 0 on STATUS, INIT or FINALIZE (R73, R76). -/
  | byteCountNotZero
  deriving DecidableEq, Repr

/-- A command whose NB field must be 0 (R73). -/
def decodeNoCount (c : HalfWord) (i : Instr) : Except DecodeError Instr :=
  if nbField c = 0#4 then .ok i else .error .byteCountNotZero

/-- The decoder: reads OP and NB and applies R75 (R79); total on every command. -/
def decode (c : Command) : Except DecodeError Instr :=
  if rsv0Field c.cmd ≠ 0#4 ∨ rsv1Field c.cmd ≠ 0#20 then .error .reservedBits
  else if opField c.cmd = 0#4 then decodeNoCount c.cmd .status
  else if opField c.cmd = 1#4 then decodeNoCount c.cmd .init
  else if opField c.cmd = 2#4 then
    if nbField c.cmd ≤ 8#4 then .ok (.update (nbField c.cmd) c.data) else .error .byteCountTooLarge
  else if opField c.cmd = 3#4 then decodeNoCount c.cmd .finalize
  else .error .reservedOp

/-- The command that the `nbits` low bits of `w` are, every bit above them 0: CMD is bits 31..0, and the operand
word DATA counts on from it, bits 95..32 (log entry 7). -/
def tableCommand (nbits w : Nat) : Command :=
  { cmd := BitVec.ofNat 32 (w % 2 ^ nbits), data := BitVec.ofNat 64 (w % 2 ^ nbits / 2 ^ 32) }

/-- What the decoder reads from an instruction whose bits, numbered as spec/opcode_table.json numbers them,
are `w`. -/
def decodeTableWord (nbits w : Nat) : Option Instr :=
  match decode (tableCommand nbits w) with
  | .ok i => some i
  | .error _ => none

/-! ### Encoder -/

/-- `0x0000_0002 OR (n << 8)` (R80). -/
def updateWord (n : BitVec 4) : HalfWord := 2#32 ||| (n.setWidth 32 <<< 8)

/-- The encoding of an instruction, from the table of R80. Where a form has no operand, DATA is written as 0. -/
def encode : Instr → Command
  | .status => { cmd := 0x00000000#32, data := 0#64 }
  | .init => { cmd := 0x00000001#32, data := 0#64 }
  | .update n data => { cmd := updateWord n, data := data }
  | .finalize => { cmd := 0x00000003#32, data := 0#64 }

/-! ### The opcode map (R83) -/

/-- One row of the opcode map: a word `w` selects it when `w AND mask = pattern`, and NB is at most `maxNb`. -/
structure OpcodeRow where
  /-- The row's mnemonic. -/
  mnemonic : String
  /-- The column `match` of R83. -/
  pattern : HalfWord
  /-- The column `mask` of R83. -/
  mask : HalfWord
  /-- The field constraint: the largest NB the row allows (8 on UPDATE; on the other rows the mask fixes NB
  at 0, and every NB is allowed here). -/
  maxNb : BitVec 4
  deriving DecidableEq, Repr

/-- The four rows of R83. -/
def opcodeMap : List OpcodeRow :=
  [ { mnemonic := "STATUS", pattern := 0x00000000#32, mask := 0xFFFFFFFF#32, maxNb := 15#4 },
    { mnemonic := "INIT", pattern := 0x00000001#32, mask := 0xFFFFFFFF#32, maxNb := 15#4 },
    { mnemonic := "UPDATE", pattern := 0x00000002#32, mask := 0xFFFFF0FF#32, maxNb := 8#4 },
    { mnemonic := "FINALIZE", pattern := 0x00000003#32, mask := 0xFFFFFFFF#32, maxNb := 15#4 } ]

/-- Whether a command word selects a row (R83). -/
def OpcodeRow.selects (r : OpcodeRow) (w : HalfWord) : Bool :=
  decide (w &&& r.mask = r.pattern) && decide (nbField w ≤ r.maxNb)

/-- The mnemonic of an instruction in the opcode map. -/
def Instr.mnemonic : Instr → String
  | .status => "STATUS"
  | .init => "INIT"
  | .update _ _ => "UPDATE"
  | .finalize => "FINALIZE"

end Sys2Proof
end

