-- ==== Sys2Proof/Machine/State.lean ====
section
/-! DEFINITION. The state of one engine: the tuple of R20, and the two channels and the reset input of R70 and R230 as
the host sees them. Plain data. -/

namespace Sys2Proof.Machine

/-- `phase`: the context's lifecycle state (R21). -/
inductive Phase where
  /-- No context has been created since reset. -/
  | uninit
  /-- A context exists; UPDATE and FINALIZE are legal. -/
  | ready
  /-- The context was consumed by FINALIZE and scrubbed. -/
  | finalized
  /-- A fault was taken; only hardware reset leaves it. -/
  | fault
  deriving DecidableEq, Repr

/-- The causes a fault can have (R201). -/
inductive FaultCause where
  /-- ILLEGAL_CMD: the command word is illegal (R202). -/
  | illegalCmd
  /-- USE_BEFORE_INIT: UPDATE or FINALIZE in UNINIT (R203). -/
  | useBeforeInit
  /-- USE_AFTER_FINALIZE: UPDATE or FINALIZE in FINALIZED (R204). -/
  | useAfterFinalize
  deriving DecidableEq, Repr

/-- `H[0..7]`: the chaining state, eight 64-bit words, `hk` being `H[k]` (R23). -/
structure Chain where
  h0 : Word
  h1 : Word
  h2 : Word
  h3 : Word
  h4 : Word
  h5 : Word
  h6 : Word
  h7 : Word
  deriving DecidableEq, Repr

/-- The pending buffer's storage: the bytes at offsets 0..127 that are not 0, as cells in rising order of offset.
An unlisted byte reads 0, the value that reset, INIT, the scrub and fault entry give it (R26, R34; log entry 6). -/
abbrev Memory := List Host.Cell

/-- One item of the response channel: the pair `(STATUS, DIGEST)` of R70 and R78. -/
structure Response where
  /-- The 32-bit status word (R28). -/
  status : HalfWord
  /-- `DIGEST[0..63]`; 64 zero bytes except in the response to a successful FINALIZE (R78). -/
  digest : List Byte
  deriving DecidableEq, Repr

/-- What the host does to the engine next (R240). -/
inductive HostMove where
  /-- It sends a command, which the engine takes and answers (R70). -/
  | command (c : Command)
  /-- The platform applies hardware reset (R230). `cut` is the command that was accepted and whose response had not
  been returned when reset was applied, if there was one (R231; log entry 4). -/
  | reset (cut : Option Command)
  deriving DecidableEq, Repr

/-- One engine. The first seven fields are the architectural tuple of R20, nothing else being architectural; the
last two are the model's own and stand for the channels (log entry 1). -/
structure State where
  /-- `phase` (R21). -/
  phase : Phase
  /-- `cause`, the code of the fault that put the engine in FAULT, 0 in every other phase (R22). -/
  cause : BitVec 4
  /-- `H[0..7]`, the chaining state (R23). -/
  h : Chain
  /-- `cnt_hi`, the high word of the bit counter (R24). -/
  cntHi : Word
  /-- `cnt_lo`, the low word of the bit counter (R24). -/
  cntLo : Word
  /-- `buf[0..127]`, the pending buffer (R26). -/
  buf : Memory
  /-- `blen`, how many bytes of the buffer hold message data (R27). -/
  blen : Offset
  /-- The host's moves the engine has not taken yet, the next one first (R70, R230). -/
  inbox : List HostMove
  /-- The responses the engine has returned, oldest first: what the host has observed (R32, R177). -/
  outbox : List Response
  deriving DecidableEq, Repr

/-- Why the engine would stop with a fault. It has no constructor: the engine never stops on its own (R177), its
faults being states it goes on from (R206, R208). Nobody raises one (log entry 16). -/
inductive Fault where
  deriving DecidableEq, Repr

/-- Why an instruction would have no meaning. -/
inductive Refusal where
  /-- Raised by `exec` for an instruction the model gives no meaning: safe, since nothing is then said of its
  effect. Every instruction has its meaning, so nobody raises it. -/
  | notModelled (mnemonic : String)
  deriving DecidableEq, Repr

/-- The state after hardware reset, with nothing sent and nothing returned (R34, R230; log entry 1). -/
def State.reset : State :=
  { phase := .uninit
    cause := 0#4
    h := { h0 := 0#64, h1 := 0#64, h2 := 0#64, h3 := 0#64, h4 := 0#64, h5 := 0#64, h6 := 0#64, h7 := 0#64 }
    cntHi := 0#64
    cntLo := 0#64
    buf := []
    blen := 0#7
    inbox := []
    outbox := [] }

end Sys2Proof.Machine
end

