-- ==== Sys2Proof/Machine/Compressor.lean ====
section
/-! DEFINITION. The Block Compressor: a pure function from a chaining state and one 128-byte block to a chaining state
(R120). All additions are modulo 2^64 and signal nothing (R10). The rotation amounts and the equations are marked by the
spec as general knowledge (G4 to G7; log entry 11). -/

namespace Sys2Proof.Machine

/-! ### Rotations and shifts (R11) -/

/-- `SHR(x, n)`. -/
def shr (x : Word) (n : Nat) : Word := x >>> n

/-- `SHL(x, n)`. -/
def shl (x : Word) (n : Nat) : Word := x <<< n

/-- `ROTR(x, n)` for `1 <= n <= 63`. -/
def rotr (x : Word) (n : Nat) : Word := shr x n ||| shl x (64 - n)

/-! ### Mixing functions (R121 to R126) -/

/-- Σ0 (R121). -/
def bigSigma0 (x : Word) : Word := rotr x 28 ^^^ rotr x 34 ^^^ rotr x 39

/-- Σ1 (R122). -/
def bigSigma1 (x : Word) : Word := rotr x 14 ^^^ rotr x 18 ^^^ rotr x 41

/-- σ0 (R123). -/
def smallSigma0 (x : Word) : Word := rotr x 1 ^^^ rotr x 8 ^^^ shr x 7

/-- σ1 (R124). -/
def smallSigma1 (x : Word) : Word := rotr x 19 ^^^ rotr x 61 ^^^ shr x 6

/-- `Ch(e, f, g)` (R125). -/
def ch (e f g : Word) : Word := (e &&& f) ^^^ (~~~e &&& g)

/-- `Maj(a, b, c)` (R126). -/
def maj (a b c : Word) : Word := (a &&& b) ^^^ (a &&& c) ^^^ (b &&& c)

/-! ### Message schedule (R127, R128) -/

/-- `W[t] = Dec64(M[8t .. 8t+7])` for `0 <= t <= 15` (R127). -/
def blockWord (m : List Byte) (t : Nat) : Word := dec64 ((m.drop (8 * t)).take 8)

/-- The next schedule word from the ones before it, newest first: entry `j` of the list is `W[t-1-j]` (R128). -/
def nextScheduleWord (newestFirst : List Word) : Word :=
  smallSigma1 (newestFirst.getD 1 0#64) + newestFirst.getD 6 0#64 + smallSigma0 (newestFirst.getD 14 0#64) +
    newestFirst.getD 15 0#64

/-- `k` more schedule words (R128), newest first. -/
def extendSchedule : Nat → List Word → List Word
  | 0, ws => ws
  | k + 1, ws => extendSchedule k (nextScheduleWord ws :: ws)

/-- The message schedule `W[0..79]` (R127, R128). -/
def schedule (m : List Byte) : List Word :=
  (extendSchedule 64 ((List.range 16).map (blockWord m)).reverse).reverse

/-! ### Rounds (R133 to R136) -/

/-- The working registers `a..h`; they exist only inside one compression (R30). -/
structure Work where
  a : Word
  b : Word
  c : Word
  d : Word
  e : Word
  f : Word
  g : Word
  h : Word
  deriving DecidableEq, Repr

/-- The chaining state copied into the working registers (R133). -/
def loadWork (hin : Chain) : Work :=
  { a := hin.h0, b := hin.h1, c := hin.h2, d := hin.h3, e := hin.h4, f := hin.h5, g := hin.h6, h := hin.h7 }

/-- `T1` of a round with constant `k` and schedule word `w` (R134). -/
def temp1 (k w : Word) (r : Work) : Word := r.h + bigSigma1 r.e + ch r.e r.f r.g + k + w

/-- `T2` of a round (R134). -/
def temp2 (r : Work) : Word := bigSigma0 r.a + maj r.a r.b r.c

/-- One round: every register moves at once, from the values before the round (R135, C6). -/
def oneRound (k w : Word) (r : Work) : Work :=
  { a := temp1 k w r + temp2 r
    b := r.a
    c := r.b
    d := r.c
    e := r.d + temp1 k w r
    f := r.e
    g := r.f
    h := r.g }

/-- Rounds with the given constants and schedule words, in order (R134). -/
def runRounds (ks ws : List Word) (r : Work) : Work :=
  (ks.zip ws).foldl (fun r kw => oneRound kw.1 kw.2 r) r

/-- Each working register added into its chaining word (R136). -/
def addWork (hin : Chain) (r : Work) : Chain :=
  { h0 := hin.h0 + r.a
    h1 := hin.h1 + r.b
    h2 := hin.h2 + r.c
    h3 := hin.h3 + r.d
    h4 := hin.h4 + r.e
    h5 := hin.h5 + r.f
    h6 := hin.h6 + r.g
    h7 := hin.h7 + r.h }

/-- `Compress(Hin, M)`: 80 rounds with `K[t]` and `W[t]` (R137, R129). Irreducible, so that no proof unfolds the
rounds unasked; `unfold compress` opens it. -/
@[irreducible] def compress (hin : Chain) (m : List Byte) : Chain :=
  addWork hin (runRounds roundConstants (schedule m) (loadWork hin))

end Sys2Proof.Machine
end

