-- ==== Sys2Proof/Machine/Flags.lean ====
section
/-! DEFINITION. The engine has no condition flags; its only status indications are the fields PHASE, CAUSE and OK of the
status word (R28, R31). -/

namespace Sys2Proof.Machine

/-- The phase code reported in STATUS[1:0] (R21). -/
def Phase.code : Phase → BitVec 2
  | .uninit => 0#2
  | .ready => 1#2
  | .finalized => 2#2
  | .fault => 3#2

/-- The cause code reported in STATUS[7:4] (R22, R201). -/
def FaultCause.code : FaultCause → BitVec 4
  | .illegalCmd => 1#4
  | .useBeforeInit => 2#4
  | .useAfterFinalize => 3#4

/-- `StatusWord(ok) = zext_32(ok << 8 | cause << 4 | phase_code)` (R28). -/
def statusWord (p : Phase) (cause : BitVec 4) (ok : Bool) : HalfWord :=
  ((BitVec.ofBool ok).setWidth 32 <<< 8) ||| (cause.setWidth 32 <<< 4) ||| p.code.setWidth 32

end Sys2Proof.Machine
end

