-- ==== Sys2Proof/Machine/Ops.lean ====
section
/-! DEFINITION. The shared operations: the pending buffer, the chaining state seen as a row of words, the channels, the
scrub, taking a fault and being refused in FAULT, the counter, and hardware reset. -/

namespace Sys2Proof.Machine

/-! ### The pending buffer (R26, R51) -/

/-- Whether a list of cells is in canonical form from offset `lo` on: offsets strictly rising, below 128, and no
listed byte 0. -/
def Memory.wfFrom : Nat → Memory → Bool
  | _, [] => true
  | lo, (a, b) :: rest => decide (lo ≤ a) && decide (a < 128) && decide (b ≠ 0#8) && Memory.wfFrom (a + 1) rest

/-- The canonical form of the buffer's storage (log entry 6). -/
def Memory.wf (m : Memory) : Bool := Memory.wfFrom 0 m

/-- The buffer with every byte 0. -/
def Memory.zero : Memory := []

/-- The byte listed for an address, 0 if none is. -/
def Memory.byteAt : Memory → Nat → Byte
  | [], _ => 0#8
  | (a', b) :: rest, a => if a = a' then b else Memory.byteAt rest a

/-- `buf[o]` (R51). -/
def Memory.read (m : Memory) (o : Offset) : Byte := m.byteAt o.toNat

/-- A cell put in front of cells of higher addresses, left out if its byte is 0. -/
def Memory.consCell (a : Nat) (b : Byte) (rest : Memory) : Memory := if b = 0#8 then rest else (a, b) :: rest

/-- The cells with the byte at address `a` made `b`. -/
def Memory.store : Memory → Nat → Byte → Memory
  | [], a, b => Memory.consCell a b []
  | (a', b') :: rest, a, b =>
    if a < a' then Memory.consCell a b ((a', b') :: rest)
    else if a = a' then Memory.consCell a b rest
    else (a', b') :: Memory.store rest a b

/-- `buf[o] <- b` (R51). -/
def Memory.write (m : Memory) (o : Offset) (b : Byte) : Memory := m.store o.toNat b

/-- `buf[o + i] <- x[i]` for each byte of `x`, in order. Every use ends at offset 127 or below (R51; log entry
12). -/
def Memory.writeBytes : Memory → Offset → List Byte → Memory
  | m, _, [] => m
  | m, o, b :: bs => Memory.writeBytes (m.write o b) (o + 1#7) bs

/-- The block view `buf[0..127]` (R51). -/
def Memory.block (m : Memory) : List Byte := (List.range 128).map m.byteAt

/-! ### The chaining state as words (R23) -/

/-- `H[0..7]` in order. -/
def Chain.toList (c : Chain) : List Word := [c.h0, c.h1, c.h2, c.h3, c.h4, c.h5, c.h6, c.h7]

/-- `H[i]` for `0 <= i <= 7` (R13). -/
def Chain.get (c : Chain) : Fin 8 → Word
  | 0 => c.h0
  | 1 => c.h1
  | 2 => c.h2
  | 3 => c.h3
  | 4 => c.h4
  | 5 => c.h5
  | 6 => c.h6
  | 7 => c.h7

/-- All eight words 0 (R34, R174). -/
def Chain.zero : Chain :=
  { h0 := 0#64, h1 := 0#64, h2 := 0#64, h3 := 0#64, h4 := 0#64, h5 := 0#64, h6 := 0#64, h7 := 0#64 }

/-! ### The bit counter (R24, R166) -/

/-- `cnt = cnt_hi * 2^64 + cnt_lo`, the 128-bit counter (R24). -/
def State.cnt (s : State) : BitVec 128 := s.cntHi ++ s.cntLo

/-- `AddCount(L)`: 128-bit addition of `8 * L` with carry, silent wrap-around (R166, R25). -/
def addCount (bytes : Nat) (s : State) : State :=
  let sum := s.cntLo.toNat + 8 * bytes
  { s with
    cntLo := BitVec.ofNat 64 sum
    cntHi := s.cntHi + BitVec.ofNat 64 (sum / 2 ^ 64) }

/-! ### Channels (R70) -/

/-- The engine takes the host's next move, if there is one: the move, and the engine with it taken. -/
def fetch (s : State) : Option (HostMove × State) :=
  match s.inbox with
  | [] => none
  | m :: rest => some (m, { s with inbox := rest })

/-- `respond(StatusWord(ok), digest)`: one response, its status computed from the state after the command's effect
(R13, R78). -/
def respond (ok : Bool) (digest : List Byte) (s : State) : State :=
  { s with outbox := s.outbox ++ [{ status := statusWord s.phase s.cause ok, digest := digest }] }

/-! ### Scrub, faults, refusal (R174, R205 to R208) -/

/-- `Scrub()`: all context memory to zero (R174); phase and cause stay. -/
def scrub (s : State) : State :=
  { s with h := Chain.zero, cntHi := 0#64, cntLo := 0#64, buf := Memory.zero, blen := 0#7 }

/-- `raise Fault(c)`: fault entry (R206). It saves nothing, zeroes the context, and answers OK = 0. -/
def raiseFault (c : FaultCause) (s : State) : State :=
  respond false (zeros 64) { scrub s with phase := .fault, cause := c.code }

/-- A command refused in phase FAULT: OK = 0 and no change (R208). There is no return from a fault (R209). -/
def refuse (s : State) : State := respond false (zeros 64) s

/-- An illegal command word: refused in FAULT, otherwise ILLEGAL_CMD, whatever the phase (R76, R202, R205). -/
def rejectIllegal (s : State) : State :=
  if s.phase = .fault then refuse s else raiseFault .illegalCmd s

/-- The phase check of UPDATE and FINALIZE: refused in FAULT, a fault in UNINIT and FINALIZED, and in READY the
command's own effect (R161, R203 to R205). -/
def whenReady (effect : State → State) (s : State) : State :=
  match s.phase with
  | .fault => refuse s
  | .uninit => raiseFault .useBeforeInit s
  | .finalized => raiseFault .useAfterFinalize s
  | .ready => effect s

/-! ### Hardware reset (R230, R231) -/

/-- Every state element takes its reset value; a command in progress leaves no trace (R231). The moves the host
makes later and the responses already returned are not the engine's, so they stay (log entry 4). -/
def hardwareReset (s : State) : State := { State.reset with inbox := s.inbox, outbox := s.outbox }

end Sys2Proof.Machine
end

