-- ==== Sys2Proof/Machine/Context.lean ====
section
/-! DEFINITION. The procedures of the streaming context that the commands run: a fresh context (R163), UpdateBytes (R165)
and its byte-serial form (R168), and the parts of FINALIZE (R170 to R173). -/

namespace Sys2Proof.Machine

/-! ### INIT (R163) -/

/-- A fresh context: H = IV, counter 0, buffer empty, phase READY (R163). INIT does not write the cause. -/
def freshContext (s : State) : State :=
  { s with phase := .ready, h := iv, cntHi := 0#64, cntLo := 0#64, buf := Memory.zero, blen := 0#7 }

/-! ### UPDATE (R165, R168) -/

/-- `k` blocks of 128 bytes compressed from the front of `x`, and what is left of `x` (R165, step 3). -/
def compressBlocks : Nat → Chain → List Byte → Chain × List Byte
  | 0, h, x => (h, x)
  | k + 1, h, x => compressBlocks k (compress h (x.take 128)) (x.drop 128)

/-- Append bytes that do not complete a block (R165, step 2). -/
def appendBytes (x : List Byte) (s : State) : State :=
  { s with buf := s.buf.writeBytes s.blen x, blen := s.blen + BitVec.ofNat 7 x.length }

/-- Fill the buffer from the head of `x`, compress it, compress every further full block of `x` directly, and
keep the remainder in the buffer (R165, step 3). The bytes of the buffer above the remainder stay as they are (R26,
D17; log entry 5). -/
def fillAndCompress (x : List Byte) (s : State) : State :=
  let room := 128 - s.blen.toNat
  let filled := s.buf.writeBytes s.blen (x.take room)
  let tail := x.drop room
  let blocks := compressBlocks (tail.length / 128) (compress s.h filled.block) tail
  { s with
    h := blocks.1
    buf := filled.writeBytes 0#7 blocks.2
    blen := BitVec.ofNat 7 blocks.2.length }

/-- `UpdateBytes(x)` for a byte sequence of any length (R165). -/
def updateBytes (x : List Byte) (s : State) : State :=
  if s.blen.toNat + x.length < 128 then appendBytes x (addCount x.length s)
  else fillAndCompress x (addCount x.length s)

/-- Compress the pending buffer (R165, R171). -/
def compressBuffer (s : State) : State := { s with h := compress s.h s.buf.block }

/-- `AppendByte(b)`: the byte-serial form of UpdateBytes (R168). -/
def appendByte (s : State) (b : Byte) : State :=
  let counted := addCount 1 s
  let stored := { counted with buf := counted.buf.write counted.blen b }
  if s.blen = 127#7 then { compressBuffer stored with blen := 0#7 } else { stored with blen := stored.blen + 1#7 }

/-! ### FINALIZE (R170 to R173) -/

/-- `PAD_BYTE` (R8, R171). -/
def padByte : Byte := 0x80#8

/-- The buffer with the `0x80` byte after the message bytes and `k` zero bytes after that (R171). -/
def markedBuffer (s : State) (k : Nat) : Memory :=
  (s.buf.write s.blen padByte).writeBytes (BitVec.ofNat 7 (s.blen.toNat + 1)) (zeros k)

/-- `Pad()` where the length field still fits behind the `0x80` byte: zero bytes up to offset 111 (R171). -/
def padOneBlock (s : State) : State := { s with buf := markedBuffer s (111 - s.blen.toNat) }

/-- `Pad()` where it does not: zero bytes to the end of the block, one compression, and a last block that starts with
112 zero bytes (R171). -/
def padTwoBlocks (s : State) : State :=
  { s with
    h := compress s.h (markedBuffer s (127 - s.blen.toNat)).block
    buf := (markedBuffer s (127 - s.blen.toNat)).writeBytes 0#7 (zeros 112) }

/-- `Pad()` (R171): two blocks when the `0x80` byte lands at offset 112 or later, one otherwise. -/
def pad (s : State) : State := if s.blen.toNat + 1 > 112 then padTwoBlocks s else padOneBlock s

/-- `WriteLength()`: the counter at offsets 112..127, high word first (R172, D18). -/
def writeLength (s : State) : State :=
  { s with buf := (s.buf.writeBytes 112#7 (enc64 s.cntHi)).writeBytes 120#7 (enc64 s.cntLo) }

/-- Steps 1 to 3 of FINALIZE: pad, write the length, compress the final block (R170). -/
def finishHash (s : State) : State := compressBuffer (writeLength (pad s))

/-- `Digest()`: the eight chaining words, big-endian, concatenated: 64 bytes (R173). -/
def digestBytes (h : Chain) : List Byte := h.toList.flatMap enc64

/-- `SHA512(x)` as R176 defines it, by the engine's own procedures from a fresh context. -/
def sha512 (x : List Byte) : List Byte :=
  digestBytes (finishHash (updateBytes x (freshContext State.reset))).h

end Sys2Proof.Machine
end

