-- ==== Sys2Proof/Machine/Operands.lean ====
section
/-! DEFINITION. The one operand form: the beat of an UPDATE (R73, R74). -/

namespace Sys2Proof.Machine

/-- `beat = Enc64(DATA)[0 .. n-1]`, empty when `n = 0`; lanes `k >= n` are ignored (R74). -/
def beat (n : BitVec 4) (data : Word) : List Byte := (enc64 data).take n.toNat

end Sys2Proof.Machine
end

