-- ==== Sys2Proof/Machine/Commands.lean ====
section
/-! DEFINITION. The meaning of each command (R162, R163, R164, R170). Each is total and answers a next state in every
state, with one response: a fault of the spec is a state the engine goes on from (R161, R206, R208). -/

namespace Sys2Proof.Machine

/-- STATUS: answers OK = 1 in every phase, FAULT included, and changes no state (R162, R208). -/
def execStatus (s : State) : Host.Outcome State Fault Refusal := .next (respond true (zeros 64) s)

/-- INIT: a fresh context from UNINIT, READY or FINALIZED; refused in FAULT (R163, R208). -/
def execInit (s : State) : Host.Outcome State Fault Refusal :=
  if s.phase = .fault then .next (refuse s) else .next (respond true (zeros 64) (freshContext s))

/-- UPDATE: one beat through UpdateBytes (R164). With NB above 8 it is an illegal command word, and the check of the
word comes before the check of the phase (R73, R205; log entry 9). -/
def execUpdate (n : BitVec 4) (data : Word) (s : State) : Host.Outcome State Fault Refusal :=
  if n ≤ 8#4 then .next (whenReady (fun r => respond true (zeros 64) (updateBytes (beat n data) r)) s)
  else .next (rejectIllegal s)

/-- The effect of FINALIZE in READY: the digest is computed, the context scrubbed, and then the response returned
(R170, R174). The scrub overwrites all that padding and compressing changed (chaining state, buffer), so it is applied
to the state they started from. -/
def finalizeContext (s : State) : State :=
  respond true (digestBytes (finishHash s).h) { scrub s with phase := .finalized }

/-- FINALIZE (R170). -/
def execFinalize (s : State) : Host.Outcome State Fault Refusal := .next (whenReady finalizeContext s)

end Sys2Proof.Machine
end

