-- ==== Sys2Proof/Machine/Dispatch.lean ====
section
/-! DEFINITION. What each instruction does: one arm per constructor of Instr (R161). -/

namespace Sys2Proof.Machine

def exec (i : Instr) (s : State) : Host.Outcome State Fault Refusal :=
  match i with
  | .status => Sys2Proof.Machine.execStatus s
  | .init => Sys2Proof.Machine.execInit s
  | .update n data => Sys2Proof.Machine.execUpdate n data s
  | .finalize => Sys2Proof.Machine.execFinalize s

end Sys2Proof.Machine
end

