-- ==== Sys2Proof/Machine/Step.lean ====
section
/-! DEFINITION. One step of the engine: it takes the host's next move and carries it out (R6, R57, R161). -/

namespace Sys2Proof.Machine

/-- One step. With no move to take the engine waits and keeps its whole state (R177, R213, R230; log entry 3). A
legal command runs, an illegal one is rejected (R76), a reset resets (R230, R231). -/
def step (s : State) : Host.Outcome State Fault Refusal :=
  match fetch s with
  | none => .next s
  | some (.reset _, t) => .next (hardwareReset t)
  | some (.command c, t) =>
    match decode c with
    | .ok i => exec i t
    | .error _ => .next (rejectIllegal t)

/-- `s` with the command whose bits are `w` as the host's next move (log entry 2). -/
def State.withFetchWord (s : State) (nbits w : Nat) : State :=
  { s with inbox := .command (tableCommand nbits w) :: s.inbox }

end Sys2Proof.Machine
end

