-- ==== Sys2Proof/Machine/Assembler.lean ====
section
/-! DEFINITION. The host's notation for commands: the assembly lines of R80 and the pseudo-commands of R81 and R82. The
engine knows nothing of it; it only sees the commands a line expands to. Log entry 17 holds what R80 leaves open about
the text of a line. -/

namespace Sys2Proof.Machine

/-! ### Pseudo-commands (R81, R82) -/

/-- The `j`-th UPDATE of the expansion of `UPDATE_BYTES x` (R81). -/
def updateBytesBeat (x : List Byte) (j : Nat) : Instr :=
  let piece := (x.drop (8 * j)).take 8
  .update (BitVec.ofNat 4 piece.length) (dec64 (piece ++ zeros (8 - piece.length)))

/-- `UPDATE_BYTES x`: `ceil(L / 8)` UPDATE commands, none for the empty string (R81). -/
def updateBytesExpansion (x : List Byte) : List Instr :=
  (List.range ((x.length + 7) / 8)).map (updateBytesBeat x)

/-- `HASH x`: INIT, then `UPDATE_BYTES x`, then FINALIZE (R82). -/
def hashExpansion (x : List Byte) : List Instr := .init :: updateBytesExpansion x ++ [.finalize]

/-! ### Numbers (R80) -/

/-- The value of a digit character, in either case; 16 for a character that is no digit. -/
def digitValue (c : Char) : Nat :=
  if 48 ≤ c.toNat ∧ c.toNat ≤ 57 then c.toNat - 48
  else if 65 ≤ c.toNat ∧ c.toNat ≤ 70 then c.toNat - 55
  else if 97 ≤ c.toNat ∧ c.toNat ≤ 102 then c.toNat - 87
  else 16

/-- Digits in a base, `_` between two digits allowed; `afterDigit` says that the character before was a digit. -/
def parseDigits (base : Nat) : Nat → Bool → List Char → Option Nat
  | value, afterDigit, [] => if afterDigit then some value else none
  | value, afterDigit, c :: cs =>
    if c = '_' then (if afterDigit then parseDigits base value false cs else none)
    else if digitValue c < base then parseDigits base (value * base + digitValue c) true cs
    else none

/-- A number: hexadecimal with `0x`, decimal otherwise (R80). -/
def parseNumber (w : List Char) : Option Nat :=
  match w with
  | '0' :: 'x' :: digits => parseDigits 16 0 false digits
  | _ => parseDigits 10 0 false w

/-! ### Tokens of a line (R80) -/

/-- A token of an assembly line. -/
inductive Token where
  /-- A mnemonic, a number or a hex byte. -/
  | word (w : List Char)
  /-- `,`. -/
  | comma
  /-- A quoted ASCII string, as its bytes. -/
  | text (bytes : List Byte)
  deriving DecidableEq, Repr

/-- Where the scan of a line stands: in a word or between words, or in a quoted string; what was read of it so
far, last character first. -/
inductive LexMode where
  | inWord (rev : List Char)
  | inText (rev : List Byte)
  deriving DecidableEq, Repr

/-- The double quote. -/
def quoteChar : Char := Char.ofNat 34

/-- The word read so far, if any, put before later tokens. -/
def flushWord (rev : List Char) (ts : List Token) : List Token :=
  if rev = [] then ts else .word rev.reverse :: ts

/-- The tokens of a line; `;` outside quotes starts a comment (R80). None for an unclosed quote or a character
that is not ASCII in one. -/
def lexLine : LexMode → List Char → Option (List Token)
  | .inWord rev, [] => some (flushWord rev [])
  | .inText _, [] => none
  | .inWord rev, c :: cs =>
    if c = ';' then some (flushWord rev [])
    else if c = ',' then (lexLine (.inWord []) cs).map fun ts => flushWord rev (.comma :: ts)
    else if c = quoteChar then (lexLine (.inText []) cs).map (flushWord rev)
    else if c.isWhitespace then (lexLine (.inWord []) cs).map (flushWord rev)
    else lexLine (.inWord (c :: rev)) cs
  | .inText rev, c :: cs =>
    if c = quoteChar then (lexLine (.inWord []) cs).map fun ts => .text rev.reverse :: ts
    else if c.toNat < 128 then lexLine (.inText (BitVec.ofNat 8 c.toNat :: rev)) cs
    else none

/-! ### Command forms (R80) -/

/-- A number below a bound. -/
def numberBelow (bound : Nat) (w : List Char) : Option Nat :=
  (parseNumber w).bind fun v => if v < bound then some v else none

/-- One hex byte of a byte list: one or two hex digits. -/
def hexByte : Token → Option Byte
  | .word w => if w.length ≤ 2 then (parseDigits 16 0 false w).map (BitVec.ofNat 8) else none
  | _ => none

/-- The byte string of a pseudo-command: one quoted string, or a list of hex bytes (R81). -/
def byteString : List Token → Option (List Byte)
  | [.text bytes] => some bytes
  | ts => ts.mapM hexByte

/-- A form without operands: DATA is written as 0 (R80). -/
def plainForm (w : List Char) : Option Command :=
  if w = "STATUS".toList then some (encode .status)
  else if w = "INIT".toList then some (encode .init)
  else if w = "FINALIZE".toList then some (encode .finalize)
  else none

/-- A form with two numbers: `UPDATE n, data`, refused for `n > 8` and for data wider than 64 bits, and the raw
`.cmd c, d` (R80). -/
def twoNumberForm (w a b : List Char) : Option Command :=
  if w = "UPDATE".toList then
    (numberBelow 9 a).bind fun n =>
      (numberBelow (2 ^ 64) b).map fun d => encode (.update (BitVec.ofNat 4 n) (BitVec.ofNat 64 d))
  else if w = ".cmd".toList then
    (numberBelow (2 ^ 32) a).bind fun c =>
      (numberBelow (2 ^ 64) b).map fun d => { cmd := BitVec.ofNat 32 c, data := BitVec.ofNat 64 d }
  else none

/-- The pseudo-commands of R81 and R82. -/
def pseudoForm (w : List Char) (operand : List Token) : Option (List Command) :=
  if w = "UPDATE_BYTES".toList then (byteString operand).map fun x => (updateBytesExpansion x).map encode
  else if w = "HASH".toList then (byteString operand).map fun x => (hashExpansion x).map encode
  else none

/-- The commands a line of tokens stands for. A line without tokens, blank or a comment alone, stands for no command:
R80 gives no form for it, and that it is allowed is the model's choice (log entry 17). `.cmd c` without `, d` is refused:
R80 gives the raw form two operands, and that the second may not be left out is the model's choice (log entry 17). -/
def assembleTokens : List Token → Option (List Command)
  | [] => some []
  | [.word w] => ((plainForm w).map fun c => [c]).or (pseudoForm w [])
  | [.word w, .word a, .comma, .word b] => (twoNumberForm w a b).map fun c => [c]
  | .word w :: operand => pseudoForm w operand
  | _ => none

/-- The commands an assembly line stands for; none where the assembler refuses the line (R80). -/
def assembleLine (line : String) : Option (List Command) :=
  (lexLine (.inWord []) line.toList).bind assembleTokens

/-- A program: one command form a line (R80), or none on a blank or comment line (log entry 17). -/
def assemble (lines : List String) : Option (List Command) := (lines.mapM assembleLine).map List.flatten

end Sys2Proof.Machine
end

