-- ==== Sys2Proof/Config.lean ====
section
/-! DEFINITION. What a realisation fixes and the spec leaves OPEN (R8, D24, D25): the number of engines and the
latencies. None has a value here, so a claim holds for every value. The fixed parameters of R8 are the widths and
lengths of the types and operations themselves: words of 64 bits, 8 chaining words, blocks of 128 bytes, 80
schedule words and rounds, a counter of two 64-bit words, pad byte 0x80, length field at offset 112, digests of 64
bytes, CMD and STATUS of 32 bits, DATA of 64 bits, at most 8 bytes a beat. The constant tables K and IV are ROM
(R29): Machine/Tables.lean. -/

namespace Sys2Proof

/-- How many engines a platform has beyond the first. -/
opaque Config.moreEngines : Nat

/-- `N_INST`, OPEN, at least 1 (R8, R214). -/
def Config.numEngines : Nat := Config.moreEngines + 1

/-! Latencies: cycles from command accepted to response valid (R238). Each may depend on no more than OP, NB, the
compression count and the phase (R239); the phase is given by its code (log entry 15). -/

/-- `LAT_STATUS`, by phase code (R238, R239). -/
opaque Config.latStatus : BitVec 2 → Nat

/-- `LAT_INIT`, by phase code (R238, R239). -/
opaque Config.latInit : BitVec 2 → Nat

/-- `LAT_UPDATE(n, c)`, by phase code, NB and compression count (R238, R239). -/
opaque Config.latUpdate : BitVec 2 → BitVec 4 → Nat → Nat

/-- `LAT_FINALIZE(c)`, by phase code and compression count (R238, R239). -/
opaque Config.latFinalize : BitVec 2 → Nat → Nat

/-- The latency of a word whose OP and NB are those of no legal command, by phase code, OP and NB: R238 names no
parameter for it and R239 bounds what it may depend on (log entry 15). -/
opaque Config.latIllegal : BitVec 2 → BitVec 4 → BitVec 4 → Nat

/-- `LAT_COMPRESS`, the cycles of one compression (R238). The spec states no relation between it and the others,
and no rule reads it. -/
opaque Config.latCompress : Nat

end Sys2Proof
end

