-- ==== Sys2Proof/Machine/Platform.lean ====
section
/-! DEFINITION. A platform of several engines (R214): a list of engines, each with its own state and channels, sharing
nothing but the ROMs (R61; log entry 14). -/

namespace Sys2Proof.Machine

/-- The engines of a platform; they have no identifier but their place (R214). -/
structure Platform where
  engines : List State
  deriving DecidableEq, Repr

/-- The engines start together at reset, each in UNINIT (R214). -/
def Platform.reset : Platform := { engines := List.replicate Config.numEngines State.reset }

/-- An engine after its next step, or as it was if it has none. -/
def advance (s : State) : State :=
  match step s with
  | .next t => t
  | .fault _ => s
  | .refused _ => s

/-- Engine `k` takes a step; the others do not move (R61). -/
def Platform.stepAt (k : Nat) (p : Platform) : Platform := { engines := p.engines.modify k advance }

/-- The host sends engine `k` one more move (R214: each engine has its own channels). -/
def Platform.send (k : Nat) (m : HostMove) (p : Platform) : Platform :=
  { engines := p.engines.modify k fun s => { s with inbox := s.inbox ++ [m] } }

end Sys2Proof.Machine
end

