-- ==== Sys2Proof/Machine/Timing.lean ====
section
/-! DEFINITION. What the spec says of time: the compression counts (R169, R175) and the latency parameters (R238, R239).
No step reads a latency: the machine has no time (R6, R238; log entry 15). -/

namespace Sys2Proof.Machine

/-- Compressions of an UPDATE of `n` bytes in READY: `floor((blen + n) / 128)` (R169). -/
def updateCompressions (blen : Offset) (n : BitVec 4) : Nat := (blen.toNat + n.toNat) / 128

/-- Compressions of a FINALIZE in READY: 1 when `blen <= 111`, 2 when `blen >= 112` (R175). -/
def finalizeCompressions (blen : Offset) : Nat := if blen ≤ 111#7 then 1 else 2

/-- The compressions an instruction runs: none where it faults or is refused (R207). -/
def compressions (i : Instr) (p : Phase) (blen : Offset) : Nat :=
  match i with
  | .status => 0
  | .init => 0
  | .update n _ => if n ≤ 8#4 ∧ p = .ready then updateCompressions blen n else 0
  | .finalize => if p = .ready then finalizeCompressions blen else 0

/-- The compressions a command runs in a state; an illegal word runs none (R76, R207). -/
def commandCompressions (c : Command) (s : State) : Nat :=
  match decode c with
  | .ok i => compressions i s.phase s.blen
  | .error _ => 0

/-- The latency parameter for OP, NB, phase and compression count, which is all that it may depend on (R238, R239). -/
def latencyParameter (op nb : BitVec 4) (p : Phase) (count : Nat) : Nat :=
  if op = 2#4 ∧ nb ≤ 8#4 then Config.latUpdate p.code nb count
  else if op = 0#4 ∧ nb = 0#4 then Config.latStatus p.code
  else if op = 1#4 ∧ nb = 0#4 then Config.latInit p.code
  else if op = 3#4 ∧ nb = 0#4 then Config.latFinalize p.code count
  else Config.latIllegal p.code op nb

/-- The latency of a command in a state (R238, R239). A word that is illegal by its reserved bits alone has the parameter
of its OP and NB, since R239 lets nothing else of the word matter (log entry 15). -/
def commandLatency (c : Command) (s : State) : Nat :=
  latencyParameter (opField c.cmd) (nbField c.cmd) s.phase (commandCompressions c s)

end Sys2Proof.Machine
end

