-- ==== Sys2Proof/Safety.lean ====
section
/-! DEFINITION. The terms claims are stated in: the invariant of the engine, the transition table (R160), what a READY
state stands for (R33), the digest of a whole message, and what a host observes (R177). -/

namespace Sys2Proof.Machine

/-! ### Invariant -/

/-- The context memory is all zero (R34, R174, R206). -/
def State.Cleared (s : State) : Prop :=
  s.h = Chain.zero ∧ s.cntHi = 0#64 ∧ s.cntLo = 0#64 ∧ s.buf = Memory.zero ∧ s.blen = 0#7

/-- A legal response: reserved bits 0, CAUSE at most 3, CAUSE = 0 exactly when PHASE is not FAULT (R28), and a
DIGEST of 64 bytes (R78). -/
def Response.Legal (r : Response) : Prop :=
  r.status.extractLsb' 2 2 = 0#2 ∧ r.status.extractLsb' 9 23 = 0#23 ∧ r.status.extractLsb' 4 4 ≤ 3#4 ∧
    (r.status.extractLsb' 4 4 = 0#4 ↔ r.status.extractLsb' 0 2 ≠ 3#2) ∧ r.digest.length = 64

/-- What holds of the engine between commands: the buffer's storage is in canonical form, a cause is recorded
exactly in FAULT and is one of the three (R22), and outside READY the context memory is zero (R34, R174, R206). -/
def State.Inv (s : State) : Prop :=
  s.buf.wf = true ∧ (s.cause ≠ 0#4 ↔ s.phase = .fault) ∧ s.cause ≤ 3#4 ∧ (s.phase ≠ .ready → s.Cleared)

/-! ### Transition table (R160) -/

/-- The phase after FINALIZE, or an UPDATE of a legal NB, that goes to `done` from READY (R160). -/
def phaseAfterUse (done : Phase) : Phase → Phase
  | .uninit => .fault
  | .ready => done
  | .finalized => .fault
  | .fault => .fault

/-- The phase after an instruction (R160). An UPDATE with NB above 8 is in the column of illegal words. -/
def nextPhase (i : Instr) (p : Phase) : Phase :=
  match i with
  | .status => p
  | .init => if p = .fault then .fault else .ready
  | .update n _ => if n ≤ 8#4 then phaseAfterUse .ready p else .fault
  | .finalize => phaseAfterUse .finalized p

/-- The cause after FINALIZE, or an UPDATE of a legal NB, with `cause` before it (R160, R205). -/
def causeAfterUse (p : Phase) (cause : BitVec 4) : BitVec 4 :=
  match p with
  | .uninit => 2#4
  | .ready => cause
  | .finalized => 3#4
  | .fault => cause

/-- The cause after an instruction that moves the engine from phase `p`, with `cause` before it (R160, R205, R210). -/
def nextCause (i : Instr) (p : Phase) (cause : BitVec 4) : BitVec 4 :=
  match i with
  | .status => cause
  | .init => cause
  | .update n _ => if n ≤ 8#4 then causeAfterUse p cause else if p = .fault then cause else 1#4
  | .finalize => causeAfterUse p cause

/-- The OK bit of the response (R160). -/
def okBit : Instr → Phase → Bool
  | .status, _ => true
  | .init, p => decide (p ≠ .fault)
  | .update n _, p => decide (n ≤ 8#4) && decide (p = .ready)
  | .finalize, p => decide (p = .ready)

/-! ### What the context stands for (R33, R167) -/

/-- The message bytes in the pending buffer: `buf[0..blen-1]` (R26). -/
def State.pending (s : State) : List Byte := s.buf.block.take s.blen.toNat

/-- Two states hold the same context: chaining state, counter, buffer length, and the buffer's message bytes
(R167). The bytes at offsets `blen` and above are left out (R26). -/
def SameContext (s t : State) : Prop :=
  s.h = t.h ∧ s.cntHi = t.cntHi ∧ s.cntLo = t.cntLo ∧ s.blen = t.blen ∧
    ∀ o : Offset, o < s.blen → s.buf.read o = t.buf.read o

/-- The full blocks `B_0, B_1, ...` of a message (R33). -/
def fullBlocks (x : List Byte) : List (List Byte) :=
  (List.range (x.length / 128)).map fun j => (x.drop (128 * j)).take 128

/-- `Compress(...Compress(Compress(IV, B_0), B_1)..., B_{q-1})` (R33). -/
def chainOf (x : List Byte) : Chain := (fullBlocks x).foldl compress iv

/-- A READY state whose context stands for the message `x` (R33). -/
def Represents (x : List Byte) (s : State) : Prop :=
  s.phase = .ready ∧ s.blen.toNat = x.length % 128 ∧ s.cnt = BitVec.ofNat 128 (8 * x.length) ∧ s.h = chainOf x ∧
    ∀ o : Offset, o < s.blen → s.buf.read o = x.getD (128 * (x.length / 128) + o.toNat) 0#8

/-- The message delivered since the last INIT once the engine has taken its next move, `x` being that before it: INIT
starts anew, an UPDATE adds its beat, and nothing else delivers bytes (R33, R66). -/
def messageAfter (x : List Byte) (s : State) : List Byte :=
  match s.inbox with
  | [] => x
  | .reset _ :: _ => x
  | .command c :: _ =>
    match decode c with
    | .ok .status => x
    | .ok .init => []
    | .ok (.update n data) => x ++ beat n data
    | .ok .finalize => x
    | .error _ => x

/-- Two engines that differ at most in the buffer bytes at offsets `blen` and above, which no rule reads (R26). -/
def SameButUnspecified (s t : State) : Prop :=
  SameContext s t ∧ s.phase = t.phase ∧ s.cause = t.cause ∧ s.inbox = t.inbox ∧ s.outbox = t.outbox

/-! ### The digest of a whole message -/

/-- How many zero bytes stand between the `0x80` byte and the length field (R171). -/
def zeroFill (len : Nat) : Nat := (239 - len % 128) % 128

/-- The message with its padding: `0x80`, zero bytes up to 112 modulo 128, and the bit count modulo 2^128, high
word first (R171, R172). -/
def paddedMessage (x : List Byte) : List Byte :=
  x ++ [0x80#8] ++ zeros (zeroFill x.length) ++ enc64 (BitVec.ofNat 64 (8 * x.length / 2 ^ 64)) ++
    enc64 (BitVec.ofNat 64 (8 * x.length))

/-- The digest in one go: pad the whole message, compress its blocks in order, serialise (R33, R171 to R173). -/
def oneShotDigest (x : List Byte) : List Byte := digestBytes (chainOf (paddedMessage x))

/-! ### The blocks a command compresses (R169, R175) -/

/-- The message bytes in the buffer with their padding and length field: the bytes FINALIZE compresses (R171, R172). -/
def paddedTail (s : State) : List Byte :=
  s.pending ++ [0x80#8] ++ zeros (zeroFill s.blen.toNat) ++ enc64 s.cntHi ++ enc64 s.cntLo

/-- The blocks an instruction compresses in a state, in order: the full blocks of the buffered bytes followed by the
beat, or of the padded tail; none where it faults or is refused (R165, R171, R207). -/
def compressedBlocks (i : Instr) (s : State) : List (List Byte) :=
  match i with
  | .status => []
  | .init => []
  | .update n data => if n ≤ 8#4 ∧ s.phase = .ready then fullBlocks (s.pending ++ beat n data) else []
  | .finalize => if s.phase = .ready then fullBlocks (paddedTail s) else []

/-! ### Compression with a rolling window (R138) -/

/-- `k` rounds with the given constants and a window of the 16 schedule words from the current round on: each
round uses the first word and appends the word 16 places on (R138). -/
def rollRounds : List Word → List Word → Work → Work
  | [], _, r => r
  | k :: ks, window, r =>
    rollRounds ks (window.tail ++ [nextScheduleWord window.reverse]) (oneRound k (window.getD 0 0#64) r)

/-- `Compress` with 16 stored schedule words in place of 80 (R138). -/
def compressRolling (hin : Chain) (m : List Byte) : Chain :=
  addWork hin (rollRounds roundConstants ((List.range 16).map (blockWord m)) (loadWork hin))

/-! ### Runs (R177) -/

/-- The host's moves that send these instructions, encoded (R80). -/
def sendAll (is : List Instr) : List HostMove := is.map fun i => .command (encode i)

/-- One legal beat: its bytes and the UPDATE that sends it. -/
abbrev Beat := BitVec 4 × Word

/-- The message that a list of beats delivers, in order (R66). -/
def messageOf (beats : List Beat) : List Byte := beats.flatMap fun b => beat b.1 b.2

/-- INIT, the beats in order, FINALIZE (R232). -/
def hashCommands (beats : List Beat) : List Instr := .init :: beats.map (fun b => .update b.1 b.2) ++ [.finalize]

/-- A run is faulted if any response has PHASE = FAULT (R177). -/
def Faulted (responses : List Response) : Prop := ∃ r ∈ responses, r.status.extractLsb' 0 2 = 3#2

end Sys2Proof.Machine
end

