-- ==== Sys2Proof/Certificates/Slice0/Obligations.lean ====
section
/-! DEFINITION. The statements about the engine, each from the rules of spec/ that its docstring names. -/

open Sys2Proof Sys2Proof.Machine

/-! ### Encoding -/

/-- The decoder reads back every well-formed instruction from its encoding (R71, R73, R74, R80). -/
def Obligations.DecodeOfEncode : Prop :=
  ∀ i : Instr, i.wellFormed = true → decode (encode i) = .ok i

/-- A command decodes exactly if its word is legal, and then to a well-formed instruction (R75, R79). -/
def Obligations.DecodeSucceedsExactlyOnLegalWords : Prop :=
  ∀ c : Command,
    ((∃ i, decode c = .ok i) ↔ legal c.cmd = true) ∧ (∀ i, decode c = .ok i → i.wellFormed = true)

/-- The formula of R75 holds of the words R75 and R83 list, and of no other. They are twelve; the count of thirteen in
R75 disagrees with its own formula and list (log entry 19). -/
def Obligations.LegalWordsAreThoseListed : Prop :=
  ∀ w : HalfWord,
    legal w = true ↔
      w = 0x00000000#32 ∨ w = 0x00000001#32 ∨ w = 0x00000003#32 ∨
        ∃ n : BitVec 4, n ≤ 8#4 ∧ w = BitVec.ofNat 32 (256 * n.toNat + 2)

/-- The opcode map decides: a decoded command's word selects the row of its mnemonic, a word that is rejected selects no
row, and no word selects two rows (R83). -/
def Obligations.OpcodeMapDecides : Prop :=
  (∀ c i, decode c = .ok i → ∃ r ∈ opcodeMap, r.mnemonic = i.mnemonic ∧ r.selects c.cmd = true) ∧
  (∀ c e, decode c = .error e → ∀ r ∈ opcodeMap, r.selects c.cmd = false) ∧
  (∀ w, ∀ r ∈ opcodeMap, ∀ r' ∈ opcodeMap, r.selects w = true → r'.selects w = true → r = r')

/-- A few command words, read off the format of R71 bit by bit, decode to what they stand for, and a few illegal ones
are rejected for the reason R76 gives. -/
def Obligations.SampleWordsDecode : Prop :=
  decode { cmd := 0b00000000000000000000000000000000, data := 5 } = .ok .status ∧
  decode { cmd := 0b00000000000000000000000000000001, data := 5 } = .ok .init ∧
  decode { cmd := 0b00000000000000000000001100000010, data := 0x6162630000000000 } =
    .ok (.update 3 0x6162630000000000) ∧
  decode { cmd := 0b00000000000000000000100000000010, data := 0x0001020304050607 } =
    .ok (.update 8 0x0001020304050607) ∧
  decode { cmd := 0b00000000000000000000000000000011, data := 5 } = .ok .finalize ∧
  decode { cmd := 0b00000000000000000000100100000010, data := 0 } = .error .byteCountTooLarge ∧
  decode { cmd := 0b00000000000000000000000100000001, data := 0 } = .error .byteCountNotZero ∧
  decode { cmd := 0b00000000000000000000000000000111, data := 0 } = .error .reservedOp ∧
  decode { cmd := 0b00000000000000000000000000010010, data := 0 } = .error .reservedBits ∧
  decode { cmd := 0b10000000000000000000000000000000, data := 0 } = .error .reservedBits

/-- The beat of an UPDATE is its first `n` DATA lanes, the most significant first; the other lanes have no effect on any
state or response, and DATA has none at all for the other operations (R74). -/
def Obligations.BeatIsTheUsedLanes : Prop :=
  (∀ (n : BitVec 4) (data : Word), n ≤ 8#4 →
    (beat n data).length = n.toNat ∧
      ∀ k, k < n.toNat → (beat n data)[k]? = some (data.extractLsb' (56 - 8 * k) 8)) ∧
  (∀ (n : BitVec 4) (data data' : Word) (s : State), n ≤ 8#4 →
    (∀ k, k < n.toNat → data.extractLsb' (56 - 8 * k) 8 = data'.extractLsb' (56 - 8 * k) 8) →
      exec (.update n data) s = exec (.update n data') s) ∧
  (∀ (w : HalfWord) (data data' : Word), opField w ≠ 2#4 →
    decode { cmd := w, data := data } = decode { cmd := w, data := data' }) ∧
  beat 3 0x6162630000000000 = [0x61, 0x62, 0x63] ∧ beat 3 0x616263FFFFFFFFFF = [0x61, 0x62, 0x63]

/-! ### The step -/

/-- When the host's next move is a command that decodes to an instruction, the step takes the move and is `exec` of
that instruction (R161). -/
def Obligations.StepRunsTheDecodedInstruction : Prop :=
  ∀ (s : State) (c : Command) (rest : List HostMove) (i : Instr),
    s.inbox = .command c :: rest → decode c = .ok i → step s = exec i { s with inbox := rest }

/-- An illegal command word is not executed: in FAULT it is refused, in every other phase it raises ILLEGAL_CMD, with the
whole effect of fault entry (R76, R202, R205). -/
def Obligations.IllegalWordIsRejected : Prop :=
  ∀ (s : State) (c : Command) (rest : List HostMove),
    s.inbox = .command c :: rest → legal c.cmd = false →
      (s.phase ≠ .fault →
        step s = .next
          { phase := .fault, cause := 1#4, h := Chain.zero, cntHi := 0#64, cntLo := 0#64, buf := Memory.zero, blen := 0#7,
            inbox := rest, outbox := s.outbox ++ [{ status := 0x00000013#32, digest := zeros 64 }] }) ∧
      (s.phase = .fault →
        step s = .next
          { s with
            inbox := rest
            outbox := s.outbox ++ [{ status := statusWord .fault s.cause false, digest := zeros 64 }] })

/-- Hardware reset puts every state element at its reset value, whatever command it cuts off, and no response is
returned for that command. That later moves and earlier responses stay is the model's choice (log entry 4). -/
def Obligations.HardwareResetResets : Prop :=
  ∀ (s : State) (cut : Option Command) (rest : List HostMove),
    s.inbox = .reset cut :: rest →
      step s = .next
        { phase := .uninit, cause := 0#4, h := Chain.zero, cntHi := 0#64, cntLo := 0#64, buf := Memory.zero, blen := 0#7,
          inbox := rest, outbox := s.outbox }

/-- The step is total: it answers a next state in every state (R161). -/
def Obligations.StepAlwaysAnswersNext : Prop :=
  ∀ s : State, ∃ t, step s = .next t

/-- One response for each command, in order, which shows FAULT exactly if the engine is then in FAULT, and none for a
reset; with nothing to take the engine waits and keeps its whole state; responses already returned never change (R60,
R70, R177, R213, R230, R231). -/
def Obligations.OneResponsePerCommand : Prop :=
  ∀ s t : State, step s = .next t →
    (∀ c rest, s.inbox = .command c :: rest →
      t.inbox = rest ∧ ∃ r, t.outbox = s.outbox ++ [r] ∧ (Faulted [r] ↔ t.phase = .fault)) ∧
    (∀ cut rest, s.inbox = .reset cut :: rest → t.inbox = rest ∧ t.outbox = s.outbox) ∧
    (s.inbox = [] → t = s)

/-- The transition table: for each phase and each command, the next phase, the recorded cause and the OK bit (R160). -/
def Obligations.PhaseTransitionsFollowTheTable : Prop :=
  ∀ (s : State) (c : Command) (rest : List HostMove), s.inbox = .command c :: rest →
    (∀ i, decode c = .ok i →
      ∃ t r, step s = .next t ∧ t.phase = nextPhase i s.phase ∧ t.cause = nextCause i s.phase s.cause ∧
        t.outbox = s.outbox ++ [r] ∧ r.status = statusWord t.phase t.cause (okBit i s.phase)) ∧
    (∀ e, decode c = .error e →
      ∃ t r, step s = .next t ∧ t.phase = .fault ∧ t.cause = (if s.phase = .fault then s.cause else 1#4) ∧
        t.outbox = s.outbox ++ [r] ∧ r.status = statusWord .fault t.cause false)

/-! ### Reset and invariants -/

/-- The reset values (R34): the values, and that every buffer byte reads 0. -/
def Obligations.ResetValues : Prop :=
  State.reset.phase = .uninit ∧ State.reset.cause = 0#4 ∧ (∀ i, State.reset.h.get i = 0) ∧ State.reset.cntHi = 0 ∧
    State.reset.cntLo = 0 ∧ (∀ o, State.reset.buf.read o = 0) ∧ State.reset.blen = 0

/-- The invariant holds at reset. -/
def Obligations.InvariantAtReset : Prop := State.reset.Inv

/-- Every step keeps the invariant: the buffer's canonical form, a cause recorded exactly in FAULT (R22), and zero
context memory outside READY (R34, R174, R206). -/
def Obligations.StepKeepsInvariant : Prop :=
  ∀ s t : State, s.Inv → step s = .next t → t.Inv

/-- Every step keeps all responses legal: reserved bits 0, CAUSE at most 3, CAUSE = 0 exactly outside FAULT, a DIGEST of
64 bytes (R28, R78). -/
def Obligations.StepKeepsResponsesLegal : Prop :=
  ∀ s t : State, s.Inv → (∀ r ∈ s.outbox, r.Legal) → step s = .next t → ∀ r ∈ t.outbox, r.Legal

/-! ### STATUS -/

/-- STATUS answers OK = 1 in every phase, with PHASE and CAUSE, and changes no state; two in a row return the same
word; right after reset the word is 0x00000100 (R162). -/
def Obligations.StatusReportsPhaseAndCause : Prop :=
  (∀ s : State,
    exec .status s = .next
      { s with outbox := s.outbox ++ [{ status := statusWord s.phase s.cause true, digest := zeros 64 }] }) ∧
  (∀ s t u : State, exec .status s = .next t → exec .status t = .next u →
    ∃ r, t.outbox = s.outbox ++ [r] ∧ u.outbox = s.outbox ++ [r, r]) ∧
  (∀ data, decode { cmd := 0x00000000, data := data } = .ok .status) ∧
  statusWord State.reset.phase State.reset.cause true = 0x00000100#32

/-- STATUS leaks nothing of the context: two engines with the same phase and cause give the same response (R162). -/
def Obligations.StatusLeaksNoContext : Prop :=
  ∀ s s' : State, s.phase = s'.phase → s.cause = s'.cause →
    ∃ t t' r, exec .status s = .next t ∧ exec .status s' = .next t' ∧
      t.outbox = s.outbox ++ [r] ∧ t'.outbox = s'.outbox ++ [r]

/-- The fields of the status word (R28), and the phase codes UNINIT 0, READY 1, FINALIZED 2, FAULT 3 (R21). -/
def Obligations.StatusWordFields : Prop :=
  ∀ (p : Phase) (cause : BitVec 4) (ok : Bool),
    (statusWord p cause ok).extractLsb' 0 2 = p.code ∧ (statusWord p cause ok).extractLsb' 2 2 = 0#2 ∧
    (statusWord p cause ok).extractLsb' 4 4 = cause ∧ (statusWord p cause ok).extractLsb' 8 1 = BitVec.ofBool ok ∧
    (statusWord p cause ok).extractLsb' 9 23 = 0#23 ∧
    (p = .uninit → p.code = 0#2) ∧ (p = .ready → p.code = 1#2) ∧ (p = .finalized → p.code = 2#2) ∧
    (p = .fault → p.code = 3#2)

/-! ### INIT -/

/-- INIT creates a fresh context from every phase but FAULT, where it is refused; a second INIT leaves the same
state; from every state that meets the invariant, so from reset, its status word is 0x00000101 (R163). -/
def Obligations.InitCreatesFreshContext : Prop :=
  (∀ s : State, s.phase ≠ .fault →
    exec .init s = .next
      { phase := .ready, cause := s.cause, h := iv, cntHi := 0#64, cntLo := 0#64, buf := Memory.zero, blen := 0#7,
        inbox := s.inbox,
        outbox := s.outbox ++ [{ status := statusWord .ready s.cause true, digest := zeros 64 }] }) ∧
  (∀ s : State, s.phase = .fault →
    exec .init s = .next
      { s with outbox := s.outbox ++ [{ status := statusWord .fault s.cause false, digest := zeros 64 }] }) ∧
  (∀ s t u : State, s.phase ≠ .fault → exec .init s = .next t → exec .init t = .next u →
    u = { t with outbox := u.outbox }) ∧
  (∀ o, Memory.zero.read o = 0#8) ∧
  (∀ data, decode { cmd := 0x00000001, data := data } = .ok .init) ∧
  (∀ s : State, s.Inv → s.phase ≠ .fault →
    ∃ t, exec .init s = .next t ∧ t.outbox = s.outbox ++ [{ status := 0x00000101#32, digest := zeros 64 }])

/-! ### UPDATE -/

/-- UPDATE below a full block: the beat's bytes follow the message bytes in the buffer, every other byte reads as
before, the length grows, the counter grows by eight bits a byte modulo 2^128, so that it does not decrease while it does not
wrap, and nothing else changes (R24, R25, R164 to R166). At offsets of the new length and above, which R26 leaves
unspecified, that a byte reads as before is the model's choice (log entry 5). -/
def Obligations.UpdateAppendsToBuffer : Prop :=
  ∀ (n : BitVec 4) (data : Word) (s : State),
    s.phase = .ready → s.buf.wf = true → n ≤ 8#4 → s.blen.toNat + n.toNat < 128 →
      ∃ t, exec (.update n data) s = .next t ∧ t.phase = .ready ∧ t.cause = s.cause ∧ t.h = s.h ∧
        t.cnt = s.cnt + BitVec.ofNat 128 (8 * n.toNat) ∧
        (s.cnt.toNat + 8 * n.toNat < 2 ^ 128 → s.cnt ≤ t.cnt) ∧ t.blen.toNat = s.blen.toNat + n.toNat ∧
        (∀ o : Offset, t.buf.read o =
          if s.blen ≤ o ∧ o.toNat < s.blen.toNat + n.toNat then data.extractLsb' (56 - 8 * (o.toNat - s.blen.toNat)) 8
          else s.buf.read o) ∧
        t.inbox = s.inbox ∧
        t.outbox = s.outbox ++ [{ status := statusWord .ready s.cause true, digest := zeros 64 }]

/-- UPDATE that completes a block: one compression of the message bytes in the buffer followed by the head of the beat,
and the rest of the beat starts the buffer anew (R164 to R166). -/
def Obligations.UpdateCompressesFullBlock : Prop :=
  ∀ (n : BitVec 4) (data : Word) (s : State),
    s.phase = .ready → s.buf.wf = true → n ≤ 8#4 → 128 ≤ s.blen.toNat + n.toNat →
      ∃ t, exec (.update n data) s = .next t ∧ t.phase = .ready ∧ t.cause = s.cause ∧
        t.h = compress s.h (s.pending ++ (beat n data).take (128 - s.blen.toNat)) ∧
        t.cnt = s.cnt + BitVec.ofNat 128 (8 * n.toNat) ∧ t.blen.toNat = s.blen.toNat + n.toNat - 128 ∧
        (∀ o : Offset, o < t.blen →
          t.buf.read o = data.extractLsb' (56 - 8 * (o.toNat + (128 - s.blen.toNat))) 8) ∧
        t.inbox = s.inbox ∧
        t.outbox = s.outbox ++ [{ status := statusWord .ready s.cause true, digest := zeros 64 }]

/-- An UPDATE of no bytes changes nothing (R164). -/
def Obligations.EmptyUpdateChangesNothing : Prop :=
  ∀ (data : Word) (s : State), s.phase = .ready →
    exec (.update 0#4 data) s = .next
      { s with outbox := s.outbox ++ [{ status := statusWord .ready s.cause true, digest := zeros 64 }] }

/-- The bytes an UPDATE stores, in full: those from `blen` on up to the end of the beat or of the buffer, and, when a
block is completed, the rest of the beat from offset 0; every other byte of the buffer reads as before. For offsets at
or above the new length this is the model's choice: the spec leaves them unspecified (R26, log entry 5). -/
def Obligations.UpdateStoresOnlyTheBeat : Prop :=
  ∀ (n : BitVec 4) (data : Word) (s t : State), s.phase = .ready → s.buf.wf = true → n ≤ 8#4 →
    exec (.update n data) s = .next t →
      ∀ o : Offset, ¬(s.blen.toNat ≤ o.toNat ∧ o.toNat < s.blen.toNat + n.toNat) →
        ¬(o.toNat + 128 < s.blen.toNat + n.toNat) → t.buf.read o = s.buf.read o

/-- `AddCount(L)` adds `8L` to the counter modulo 2^128, for any `L`, with the carry into the high word and silent
wrap-around (R166). -/
def Obligations.AddCountIsModularAddition : Prop :=
  (∀ (bytes : Nat) (s : State), (addCount bytes s).cnt = s.cnt + BitVec.ofNat 128 (8 * bytes)) ∧
  (∀ s : State, s.cntLo = 0xFFFFFFFFFFFFFFF8#64 →
    (addCount 1 s).cntLo = 0#64 ∧ (addCount 1 s).cntHi = s.cntHi + 1#64) ∧
  (∀ s : State, s.cntHi = 0xFFFFFFFFFFFFFFFF#64 → s.cntLo = 0xFFFFFFFFFFFFFFF8#64 →
    (addCount 1 s).cnt = 0#128) ∧
  (∀ s : State, s.cntHi = 0#64 → s.cntLo = 0#64 →
    (addCount 3 s).cntLo = 24#64 ∧ (addCount 3 s).cntHi = 0#64)

/-- The compressions an UPDATE runs: `floor((blen + n) / 128)`, which is 0 or 1, and the new buffer length
`(blen + n) mod 128` (R169). -/
def Obligations.UpdateCompressionCount : Prop :=
  ∀ (n : BitVec 4) (data : Word) (s : State), s.phase = .ready → s.buf.wf = true → n ≤ 8#4 →
    ∃ t, exec (.update n data) s = .next t ∧ t.blen.toNat = (s.blen.toNat + n.toNat) % 128 ∧
      (compressions (.update n data) s.phase s.blen = 0 ∧ t.h = s.h ∨
        compressions (.update n data) s.phase s.blen = 1 ∧
          t.h = compress s.h (s.pending ++ (beat n data).take (128 - s.blen.toNat)))

/-- The concatenation law: `UpdateBytes(a); UpdateBytes(b)` leaves the same context as `UpdateBytes(a ‖ b)`, and any
split of a message into pieces, none at all included, gives the digest of the whole (R167). -/
def Obligations.ConcatenationLaw : Prop :=
  (∀ (s : State) (a b : List Byte), s.phase = .ready → s.buf.wf = true →
    SameContext (updateBytes b (updateBytes a s)) (updateBytes (a ++ b) s)) ∧
  (∀ pieces : List (List Byte),
    digestBytes (finishHash (pieces.foldl (fun s x => updateBytes x s) (freshContext State.reset))).h =
      sha512 pieces.flatten)

/-- `UpdateBytes(x)` has the effect of appending the bytes of `x` one at a time (R168). -/
def Obligations.ByteSerialEquivalence : Prop :=
  ∀ (s : State) (x : List Byte), s.buf.wf = true → SameContext (updateBytes x s) (x.foldl appendByte s)

/-! ### FINALIZE -/

/-- FINALIZE: one block when `blen <= 111`, two when `blen >= 112`; the last block ends in the 128-bit counter, high word
first; the digest is answered and all context memory is zero (R171, R172, R174, R175). -/
def Obligations.FinalizePadsCompressesAndScrubs : Prop :=
  ∀ s : State, s.phase = .ready → s.buf.wf = true →
    exec .finalize s = .next
      { phase := .finalized, cause := s.cause, h := Chain.zero, cntHi := 0#64, cntLo := 0#64, buf := Memory.zero, blen := 0#7,
        inbox := s.inbox,
        outbox := s.outbox ++
          [{ status := statusWord .finalized s.cause true,
             digest := digestBytes
              (if s.blen.toNat ≤ 111 then
                compress s.h (s.pending ++ [0x80#8] ++ zeros (111 - s.blen.toNat) ++
                  enc64 s.cntHi ++ enc64 s.cntLo)
              else
                compress
                  (compress s.h (s.pending ++ [0x80#8] ++ zeros (127 - s.blen.toNat)))
                  (zeros 112 ++ enc64 s.cntHi ++ enc64 s.cntLo)) }] }

/-- The digest is the eight chaining words, big-endian, concatenated: 64 bytes, never truncated (R173). -/
def Obligations.DigestIsBigEndianChain : Prop :=
  ∀ h : Chain, (digestBytes h).length = 64 ∧
    ∀ (i : Fin 8) (k : Nat), k < 8 →
      (digestBytes h)[8 * i.val + k]? = some ((h.get i).extractLsb' (56 - 8 * k) 8)

/-- After FINALIZE no state holds anything of the message: two engines with any contexts end alike, but for the digest
in their last response (R174). -/
def Obligations.FinalizeErasesTheMessage : Prop :=
  ∀ s s' : State, s.phase = .ready → s'.phase = .ready → s.cause = s'.cause → s.inbox = s'.inbox →
    ∃ t t' r r', exec .finalize s = .next t ∧ exec .finalize s' = .next t' ∧
      t.outbox = s.outbox ++ [r] ∧ t'.outbox = s'.outbox ++ [r'] ∧ r.status = r'.status ∧
      { t with outbox := [] } = { t' with outbox := [] }

/-- A response carries a digest other than 64 zero bytes only if it answers a FINALIZE in READY (R78, R236). -/
def Obligations.DigestLeavesOnlyByFinalize : Prop :=
  ∀ s t : State, step s = .next t → ∀ r, t.outbox = s.outbox ++ [r] → r.digest ≠ zeros 64 →
    s.phase = .ready ∧ ∃ c rest, s.inbox = .command c :: rest ∧ decode c = .ok .finalize

/-! ### Faults -/

/-- USE_BEFORE_INIT: an UPDATE of any legal NB, or a FINALIZE, in UNINIT (R203, R206). -/
def Obligations.UseBeforeInitFaults : Prop :=
  ∀ (i : Instr) (s : State), i = .finalize ∨ (∃ n data, n ≤ 8#4 ∧ i = .update n data) → s.phase = .uninit →
    exec i s = .next
      { phase := .fault, cause := 2#4, h := Chain.zero, cntHi := 0#64, cntLo := 0#64, buf := Memory.zero, blen := 0#7,
        inbox := s.inbox, outbox := s.outbox ++ [{ status := 0x00000023#32, digest := zeros 64 }] }

/-- USE_AFTER_FINALIZE: an UPDATE of any legal NB, or a FINALIZE, in FINALIZED (R204, R206). -/
def Obligations.UseAfterFinalizeFaults : Prop :=
  ∀ (i : Instr) (s : State), i = .finalize ∨ (∃ n data, n ≤ 8#4 ∧ i = .update n data) → s.phase = .finalized →
    exec i s = .next
      { phase := .fault, cause := 3#4, h := Chain.zero, cntHi := 0#64, cntLo := 0#64, buf := Memory.zero, blen := 0#7,
        inbox := s.inbox, outbox := s.outbox ++ [{ status := 0x00000033#32, digest := zeros 64 }] }

/-- The check of the word comes before the check of the phase: an UPDATE with NB above 8 raises ILLEGAL_CMD in every
phase but FAULT, so in UNINIT and FINALIZED too (R202, R205). No word decodes to such an instruction; that `exec` gives
it the effect of the illegal word is the model's choice (log entry 9). -/
def Obligations.IllegalCountComesFirst : Prop :=
  ∀ (n : BitVec 4) (data : Word) (s : State), 8#4 < n → s.phase ≠ .fault →
    exec (.update n data) s = .next
      { phase := .fault, cause := 1#4, h := Chain.zero, cntHi := 0#64, cntLo := 0#64, buf := Memory.zero, blen := 0#7,
        inbox := s.inbox, outbox := s.outbox ++ [{ status := 0x00000013#32, digest := zeros 64 }] }

/-- A step that enters FAULT has the whole effect of fault entry and no other: context memory zero, one of the three
causes, the answer OK = 0 with no digest, and nothing of the faulting command kept (R206, R207). -/
def Obligations.FaultEntryIsPrecise : Prop :=
  ∀ s t : State, step s = .next t → s.phase ≠ .fault → t.phase = .fault →
    t.Cleared ∧ (t.cause = 1#4 ∨ t.cause = 2#4 ∨ t.cause = 3#4) ∧
      t.outbox = s.outbox ++ [{ status := statusWord .fault t.cause false, digest := zeros 64 }] ∧
      ∃ c, s.inbox = .command c :: t.inbox

/-- In FAULT no command changes the state: STATUS answers OK = 1, every other word, legal or not, OK = 0, each with the
recorded cause (R208). -/
def Obligations.FaultPhaseRefusesCommands : Prop :=
  ∀ (s : State) (c : Command) (rest : List HostMove), s.phase = .fault → s.inbox = .command c :: rest →
    step s = .next
      { s with
        inbox := rest
        outbox := s.outbox ++
          [{ status := statusWord .fault s.cause (decide (c.cmd = 0#32)), digest := zeros 64 }] }

/-- Only hardware reset leaves FAULT, for UNINIT with cause 0; until then the first fault's cause stays (R209,
R210). -/
def Obligations.OnlyResetLeavesFault : Prop :=
  ∀ s t : State, step s = .next t → s.phase = .fault →
    (t.phase = .fault ∧ t.cause = s.cause) ∨
      (t.phase = .uninit ∧ t.cause = 0#4 ∧ ∃ cut, s.inbox = .reset cut :: t.inbox)

/-! ### Codec -/

/-- `Enc64` gives the bytes of the word, the most significant first, and `Dec64` the sum of the bytes by their
weights (R101, R102). -/
def Obligations.CodecBytesAndWeights : Prop :=
  (∀ v : Word, (enc64 v).length = 8 ∧ ∀ k, k < 8 → (enc64 v)[k]? = some (v.extractLsb' (56 - 8 * k) 8)) ∧
  (∀ b : List Byte, b.length = 8 →
    (dec64 b).toNat = ((List.range 8).map fun k => (b.getD k 0#8).toNat * 2 ^ (56 - 8 * k)).sum) ∧
  enc64 0 = List.replicate 8 0x00 ∧ enc64 0xFFFFFFFFFFFFFFFF = List.replicate 8 0xFF ∧
  enc64 0x0123456789ABCDEF = [0x01, 0x23, 0x45, 0x67, 0x89, 0xAB, 0xCD, 0xEF] ∧
  dec64 [0x61, 0x62, 0x63, 0x80, 0x00, 0x00, 0x00, 0x00] = 0x6162638000000000

/-- The 64-bit round-trip laws (R103). -/
def Obligations.Codec64RoundTrip : Prop :=
  (∀ x : Word, dec64 (enc64 x) = x) ∧ (∀ b : List Byte, b.length = 8 → enc64 (dec64 b) = b)

/-- `Enc32` gives the bytes of the word, the most significant first, and `Dec32` the sum of the bytes by their weights
(R104, R105); and the 32-bit round-trip laws (R106). -/
def Obligations.Codec32RoundTrip : Prop :=
  (∀ v : HalfWord, (enc32 v).length = 4 ∧ ∀ k, k < 4 → (enc32 v)[k]? = some (v.extractLsb' (24 - 8 * k) 8)) ∧
  (∀ b : List Byte, b.length = 4 →
    (dec32 b).toNat = ((List.range 4).map fun k => (b.getD k 0#8).toNat * 2 ^ (24 - 8 * k)).sum) ∧
  enc32 0xDEADBEEF = [0xDE, 0xAD, 0xBE, 0xEF] ∧ dec32 [0x00, 0x00, 0x01, 0x00] = 0x00000100 ∧
  (∀ x : HalfWord, dec32 (enc32 x) = x) ∧ (∀ b : List Byte, b.length = 4 → enc32 (dec32 b) = b)

/-- Where a message byte lands: byte `p` of a block is in word `p / 8`, bits `63 - 8 (p mod 8)` down to
`56 - 8 (p mod 8)` (R54). -/
def Obligations.BlockBytePosition : Prop :=
  ∀ (m : List Byte) (p : Nat), m.length = 128 → p < 128 →
    m[p]? = some ((blockWord m (p / 8)).extractLsb' (56 - 8 * (p % 8)) 8)

/-! ### Compressor -/

/-- `ROTR(x, n)` for `1 <= n <= 63` moves every bit `n` places down, around the end (R11), and so each bit of Σ0, Σ1,
σ0 and σ1 is the sum modulo 2 of three bits of the operand, at the rules' distances, the shift term giving 0 past the
top; with the rules' corner cases and examples (R121 to R124). -/
def Obligations.RotationMovesEveryBit : Prop :=
  (∀ (x : Word) (n i : Nat), 1 ≤ n → n ≤ 63 → i < 64 → (rotr x n).getLsbD i = x.getLsbD ((i + n) % 64)) ∧
  (∀ (x : Word) (i : Nat), i < 64 →
    (bigSigma0 x).getLsbD i =
      ((x.getLsbD ((i + 28) % 64) ^^ x.getLsbD ((i + 34) % 64)) ^^ x.getLsbD ((i + 39) % 64)) ∧
    (bigSigma1 x).getLsbD i =
      ((x.getLsbD ((i + 14) % 64) ^^ x.getLsbD ((i + 18) % 64)) ^^ x.getLsbD ((i + 41) % 64)) ∧
    (smallSigma0 x).getLsbD i =
      ((x.getLsbD ((i + 1) % 64) ^^ x.getLsbD ((i + 8) % 64)) ^^ (decide (i + 7 < 64) && x.getLsbD (i + 7))) ∧
    (smallSigma1 x).getLsbD i =
      ((x.getLsbD ((i + 19) % 64) ^^ x.getLsbD ((i + 61) % 64)) ^^ (decide (i + 6 < 64) && x.getLsbD (i + 6)))) ∧
  (bigSigma0 0 = 0 ∧ bigSigma1 0 = 0 ∧ smallSigma0 0 = 0 ∧ smallSigma1 0 = 0) ∧
  (bigSigma0 0xFFFFFFFFFFFFFFFF = 0xFFFFFFFFFFFFFFFF ∧ bigSigma1 0xFFFFFFFFFFFFFFFF = 0xFFFFFFFFFFFFFFFF ∧
    smallSigma0 0xFFFFFFFFFFFFFFFF = 0x01FFFFFFFFFFFFFF ∧ smallSigma1 0xFFFFFFFFFFFFFFFF = 0x03FFFFFFFFFFFFFF) ∧
  (bigSigma0 0x0123456789ABCDEF = 0xB7C57A100C7EC1AB ∧ bigSigma1 0x0123456789ABCDEF = 0x7703112333475567 ∧
    smallSigma0 0x0123456789ABCDEF = 0x6F92C77C6C4F1AA1 ∧ smallSigma1 0x0123456789ABCDEF = 0x70A3460DBBD4317A) ∧
  (bigSigma0 1 = 0x0000001042000000 ∧ bigSigma1 1 = 0x0004400000800000 ∧ smallSigma0 1 = 0x8100000000000000 ∧
    smallSigma1 1 = 0x0000200000000008)

/-- `Ch` chooses bit by bit and `Maj` takes the majority of each bit (R125, R126). -/
def Obligations.ChooseAndMajority : Prop :=
  (∀ (e f g : Word) (i : Nat), i < 64 →
    (ch e f g).getLsbD i = if e.getLsbD i then f.getLsbD i else g.getLsbD i) ∧
  (∀ (a b c : Word) (i : Nat), i < 64 →
    (maj a b c).getLsbD i = decide (2 ≤ (a.getLsbD i).toNat + (b.getLsbD i).toNat + (c.getLsbD i).toNat)) ∧
  (∀ f g : Word, ch 0#64 f g = g ∧ ch (BitVec.allOnes 64) f g = f) ∧
  (∀ x y : Word, maj x x y = x) ∧
  ch 0xFF00FF00FF00FF00 0x0123456789ABCDEF 0xFEDCBA9876543210 = 0x01DC45988954CD10 ∧
  maj 0xFF00FF00FF00FF00 0x0123456789ABCDEF 0xFEDCBA9876543210 = 0xFF00FF00FF00FF00

/-- The message schedule: 80 words, the first 16 the block's big-endian words, the others by the recurrence; an all-zero
block gives all-zero words; and the rules' example, the padded "abc" block (R127, R128). -/
def Obligations.ScheduleFollowsRecurrence : Prop :=
  (∀ m : List Byte, (schedule m).length = 80 ∧
    (∀ t, t < 16 → (schedule m).getD t 0#64 = dec64 ((m.drop (8 * t)).take 8)) ∧
    (∀ t, 16 ≤ t → t < 80 →
      (schedule m).getD t 0#64 =
        smallSigma1 ((schedule m).getD (t - 2) 0#64) + (schedule m).getD (t - 7) 0#64 +
          smallSigma0 ((schedule m).getD (t - 15) 0#64) + (schedule m).getD (t - 16) 0#64)) ∧
  schedule (zeros 128) = List.replicate 80 0#64 ∧
  (let w := schedule ([0x61, 0x62, 0x63, 0x80] ++ zeros 123 ++ [0x18])
   w.take 16 = [0x6162638000000000] ++ List.replicate 14 0 ++ [0x0000000000000018] ∧
     w.getD 16 0 = 0x6162638000000000 ∧ w.getD 17 0 = 0x00030000000000C0 ∧ w.getD 18 0 = 0x0A9699A24C700003 ∧
     w.getD 79 0 = 0x92AEEED1A7BCF7D2)

/-- One round: the two temporaries from the registers before it, and every register moved at once; and the rule's
example, round 0 of the padded "abc" block from `Hin = IV` (R134, R135). -/
def Obligations.RoundEquations : Prop :=
  (∀ (k w : Word) (r : Work),
    let t1 := r.h + bigSigma1 r.e + ch r.e r.f r.g + k + w
    let t2 := bigSigma0 r.a + maj r.a r.b r.c
    oneRound k w r =
      { a := t1 + t2, b := r.a, c := r.b, d := r.c, e := r.d + t1, f := r.e, g := r.f, h := r.g }) ∧
  oneRound (roundConstants.getD 0 0#64) 0x6162638000000000 (loadWork iv) =
    { a := 0xF6AFCEB8BCFCDDF5, b := 0x6A09E667F3BCC908, c := 0xBB67AE8584CAA73B, d := 0x3C6EF372FE94F82B,
      e := 0x58CB02347AB51F91, f := 0x510E527FADE682D1, g := 0x9B05688C2B3E6C1F, h := 0x1F83D9ABFB41BD6B }

/-- The compression: whatever sequence of working registers starts with the chaining state and makes round `t` with
`K[t]` and `W[t]`, the result is the chaining state plus the registers after round 79 (R133, R136, R137). -/
def Obligations.CompressRunsEightyRounds : Prop :=
  ∀ (hin : Chain) (m : List Byte) (rs : Nat → Work),
    rs 0 = { a := hin.h0, b := hin.h1, c := hin.h2, d := hin.h3, e := hin.h4, f := hin.h5, g := hin.h6, h := hin.h7 } →
    (∀ t, t < 80 → rs (t + 1) = oneRound (roundConstants.getD t 0#64) ((schedule m).getD t 0#64) (rs t)) →
      compress hin m =
        { h0 := hin.h0 + (rs 80).a, h1 := hin.h1 + (rs 80).b, h2 := hin.h2 + (rs 80).c, h3 := hin.h3 + (rs 80).d,
          h4 := hin.h4 + (rs 80).e, h5 := hin.h5 + (rs 80).f, h6 := hin.h6 + (rs 80).g, h7 := hin.h7 + (rs 80).h }

/-- A compressor that stores a window of 16 schedule words in place of 80 returns the same result for every
input (R138). -/
def Obligations.RollingWindowCompresses : Prop :=
  ∀ (hin : Chain) (m : List Byte), compressRolling hin m = compress hin m

/-- The defining property of the tables: K[t] is the first 64 bits of the fractional part of the cube root of the
(t+1)-th prime, IV[i] of the square root of the (i+1)-th (R130). -/
def Obligations.TablesAreRootsOfPrimes : Prop :=
  (∀ t, t < 80 → ∃ root, (roundConstants.getD t 0#64).toNat = root % 2 ^ 64 ∧
    root ^ 3 ≤ Nat.nth Nat.Prime t * 2 ^ 192 ∧ Nat.nth Nat.Prime t * 2 ^ 192 < (root + 1) ^ 3) ∧
  (∀ i : Fin 8, ∃ root, (iv.get i).toNat = root % 2 ^ 64 ∧
    root ^ 2 ≤ Nat.nth Nat.Prime i.val * 2 ^ 128 ∧ Nat.nth Nat.Prime i.val * 2 ^ 128 < (root + 1) ^ 2)

/-! ### The hash -/

/-- The context invariant, kept by every step: where the engine is READY its context stands for the message delivered
since the last INIT (R33). INIT makes a READY state that stands for the empty message; an UPDATE makes one that stands for
`x` stand for `x` followed by its beat; and whatever move a step takes, or none, from a state that stands for `x` if it is
READY, it leaves one that stands for the message after that move if it is READY. -/
def Obligations.ContextStandsForTheMessage : Prop :=
  (∀ s t : State, s.phase ≠ .fault → exec .init s = .next t → Represents [] t) ∧
  (∀ (x : List Byte) (n : BitVec 4) (data : Word) (s t : State), s.buf.wf = true → Represents x s → n ≤ 8#4 →
    exec (.update n data) s = .next t → Represents (x ++ beat n data) t) ∧
  (∀ (x : List Byte) (s t : State), s.buf.wf = true → (s.phase = .ready → Represents x s) → step s = .next t →
    t.buf.wf = true ∧ (t.phase = .ready → Represents (messageAfter x s) t))

/-- FINALIZE of a context that stands for `x` answers the digest of `x`: pad, compress the blocks in order,
serialise (R33, R170 to R173). -/
def Obligations.FinalizeAnswersTheDigest : Prop :=
  ∀ (x : List Byte) (s : State), s.buf.wf = true → Represents x s →
    ∃ t, exec .finalize s = .next t ∧
      t.outbox = s.outbox ++ [{ status := statusWord .finalized s.cause true, digest := oneShotDigest x }]

/-- The streaming procedures of R176 compute the one-shot digest of every message: all of it padded (R171, R172),
its blocks compressed in order (R33), the result serialised (R173). -/
def Obligations.StreamingEqualsOneShot : Prop :=
  ∀ x : List Byte, sha512 x = oneShotDigest x

/-- INIT, any legal beats, FINALIZE, from any phase but FAULT: the engine takes exactly these commands, ends in
FINALIZED with its context zero, answers OK to each, and its last response carries the digest of the message the beats
deliver, however it was split (R66, R167, R176, R232). -/
def Obligations.AnySplitGivesTheDigest : Prop :=
  ∀ (s : State) (beats : List Beat) (rest : List HostMove),
    s.phase ≠ .fault → (∀ b ∈ beats, b.1 ≤ 8#4) → s.inbox = sendAll (hashCommands beats) ++ rest →
      ∃ t, Sys2Proof.core.run (beats.length + 2) s = .next t ∧ t.phase = .finalized ∧ t.Cleared ∧ t.inbox = rest ∧
        t.outbox = s.outbox ++
          List.replicate (beats.length + 1) { status := statusWord .ready s.cause true, digest := zeros 64 } ++
          [{ status := statusWord .finalized s.cause true, digest := sha512 (messageOf beats) }]

/-- The expansion of `UPDATE_BYTES x`: `ceil(L / 8)` UPDATEs with the operands `n_j` and `data_j` of R81, all of them
legal, whose beats together are `x` (R81). -/
def Obligations.UpdateBytesExpansionDelivers : Prop :=
  ∀ x : List Byte, (updateBytesExpansion x).length = (x.length + 7) / 8 ∧
    (∀ j, j < (x.length + 7) / 8 →
      (updateBytesExpansion x)[j]? = some (.update (BitVec.ofNat 4 (min 8 (x.length - 8 * j)))
        (dec64 ((x.drop (8 * j)).take 8 ++ zeros (8 - min 8 (x.length - 8 * j)))))) ∧
    ∃ beats : List Beat, updateBytesExpansion x = beats.map (fun b => Instr.update b.1 b.2) ∧
      (∀ b ∈ beats, b.1 ≤ 8#4) ∧ messageOf beats = x

/-- `HASH x` is INIT, then `UPDATE_BYTES x`, then FINALIZE; from any phase but FAULT its last response carries
`SHA512(x)` (R82, R176). -/
def Obligations.HashReturnsTheDigest : Prop :=
  ∀ (s : State) (x : List Byte) (rest : List HostMove),
    hashExpansion x = [.init] ++ updateBytesExpansion x ++ [.finalize] ∧
    (s.phase ≠ .fault → s.inbox = sendAll (hashExpansion x) ++ rest →
      ∃ t earlier, Sys2Proof.core.run (hashExpansion x).length s = .next t ∧
        t.outbox = s.outbox ++ earlier ++
          [{ status := statusWord .finalized s.cause true, digest := sha512 x }])

/-- The unspecified buffer bytes are never observable: two engines that differ at most in them step to engines that
differ at most in them, with the same responses (R26). -/
def Obligations.UnspecifiedBytesNeverObserved : Prop :=
  ∀ s s' t t' : State, s.buf.wf = true → s'.buf.wf = true → SameButUnspecified s s' →
    step s = .next t → step s' = .next t' → SameButUnspecified t t'

/-! ### Instances and timing -/

/-- A step of one engine changes no other engine, and what it does depends on that engine alone (R61). -/
def Obligations.EnginesAreIndependent : Prop :=
  (∀ (p : Platform) (k j : Nat), j ≠ k → (p.stepAt k).engines[j]? = p.engines[j]?) ∧
  (∀ (p p' : Platform) (k : Nat), p.engines[k]? = p'.engines[k]? →
    (p.stepAt k).engines[k]? = (p'.stepAt k).engines[k]?) ∧
  (∀ (p : Platform) (k j : Nat), ((p.stepAt k).stepAt j) = ((p.stepAt j).stepAt k))

/-- A platform has at least one engine, and they all start in UNINIT (R214). -/
def Obligations.EnginesStartAtReset : Prop :=
  0 < Platform.reset.engines.length ∧ ∀ s ∈ Platform.reset.engines, s = State.reset ∧ s.phase = .uninit

/-- The latency of a command depends only on OP, NB, the phase and the compression count; the count is that of the
blocks the command really compresses, with the values of the bytes making no difference to it; and the latency is the
parameter R238 names for the command, taken at that count (R238, R239). That the parameters are functions of just these
arguments, and which of them an illegal word has, is the model's choice (log entry 15). -/
def Obligations.LatencyIsDataIndependent : Prop :=
  (∀ (c c' : Command) (s s' : State), opField c.cmd = opField c'.cmd → nbField c.cmd = nbField c'.cmd →
    s.phase = s'.phase → commandCompressions c s = commandCompressions c' s' →
      commandLatency c s = commandLatency c' s') ∧
  (∀ (c c' : Command) (s s' : State), c.cmd = c'.cmd → s.phase = s'.phase → s.blen = s'.blen →
    commandLatency c s = commandLatency c' s') ∧
  (∀ (n : BitVec 4) (data : Word) (s t : State), s.buf.wf = true → s.phase = .ready → n ≤ 8#4 →
    exec (.update n data) s = .next t →
      t.h = (compressedBlocks (.update n data) s).foldl compress s.h ∧
        ∀ b ∈ compressedBlocks (.update n data) s, b.length = 128) ∧
  (∀ (i : Instr) (s : State), (compressedBlocks i s).length = compressions i s.phase s.blen) ∧
  (∀ (n : BitVec 4) (data : Word) (s : State), n ≤ 8#4 →
    commandLatency (encode .status) s = Config.latStatus s.phase.code ∧
    commandLatency (encode .init) s = Config.latInit s.phase.code ∧
    commandLatency (encode (.update n data)) s =
      Config.latUpdate s.phase.code n (compressedBlocks (.update n data) s).length ∧
    commandLatency (encode .finalize) s =
      Config.latFinalize s.phase.code (compressedBlocks .finalize s).length)

/-- The compressions a FINALIZE runs, 1 when `blen <= 111` and 2 when `blen >= 112`: as many blocks of 128 bytes as
`compressions` counts, which are together the padded tail, and the digest is that of the chaining state after them in
order (R175, R170 to R173). -/
def Obligations.FinalizeCompressionCount : Prop :=
  ∀ s : State, s.phase = .ready → s.buf.wf = true →
    compressions .finalize s.phase s.blen = (if s.blen.toNat ≤ 111 then 1 else 2) ∧
    (compressedBlocks .finalize s).length = compressions .finalize s.phase s.blen ∧
    (∀ b ∈ compressedBlocks .finalize s, b.length = 128) ∧
    (compressedBlocks .finalize s).flatten = paddedTail s ∧
    ∃ t, exec .finalize s = .next t ∧
      t.outbox = s.outbox ++
        [{ status := statusWord .finalized s.cause true,
           digest := digestBytes ((compressedBlocks .finalize s).foldl compress s.h) }]
end

