-- ==== Sys2Proof/Laws/Codec.lean ====
section
/-! SUPPORT. The codec on the level of natural numbers. -/

namespace Sys2Proof.Machine

/-- What byte `k` contributes to `Dec64`, as a number (R102). -/
theorem dec64Term_toNat (b : List Byte) {k : Nat} (hk : k < 8) :
    (dec64Term b k).toNat = (b.getD k 0#8).toNat * 2 ^ (56 - 8 * k) := by
  have hb := (b.getD k 0#8).isLt
  rw [dec64Term, BitVec.toNat_shiftLeft, BitVec.toNat_setWidth, Nat.shiftLeft_eq,
    Nat.mod_eq_of_lt (show (b.getD k 0#8).toNat < 2 ^ 64 by omega), Nat.mod_eq_of_lt]
  calc (b.getD k 0#8).toNat * 2 ^ (56 - 8 * k) < 2 ^ 8 * 2 ^ (56 - 8 * k) :=
        Nat.mul_lt_mul_of_pos_right hb (Nat.two_pow_pos _)
    _ ≤ 2 ^ 64 := by rw [← Nat.pow_add]; exact Nat.pow_le_pow_right (by decide) (by omega)

/-- What byte `k` contributes to `Dec32`, as a number (R105). -/
theorem dec32Term_toNat (b : List Byte) {k : Nat} (hk : k < 4) :
    (dec32Term b k).toNat = (b.getD k 0#8).toNat * 2 ^ (24 - 8 * k) := by
  have hb := (b.getD k 0#8).isLt
  rw [dec32Term, BitVec.toNat_shiftLeft, BitVec.toNat_setWidth, Nat.shiftLeft_eq,
    Nat.mod_eq_of_lt (show (b.getD k 0#8).toNat < 2 ^ 32 by omega), Nat.mod_eq_of_lt]
  calc (b.getD k 0#8).toNat * 2 ^ (24 - 8 * k) < 2 ^ 8 * 2 ^ (24 - 8 * k) :=
        Nat.mul_lt_mul_of_pos_right hb (Nat.two_pow_pos _)
    _ ≤ 2 ^ 32 := by rw [← Nat.pow_add]; exact Nat.pow_le_pow_right (by decide) (by omega)

/-- A sum of words, as a number. -/
theorem sum_toNat {w : Nat} (l : List Nat) (f : Nat → BitVec w) :
    ((l.map f).sum).toNat = (l.map fun k => (f k).toNat).sum % 2 ^ w := by
  induction l with
  | nil => simp
  | cons a l ih =>
    rw [List.map_cons, List.sum_cons, List.map_cons, List.sum_cons, BitVec.toNat_add, ih, Nat.add_mod_mod]

/-- A byte of a word, as a number. -/
theorem extractByte_toNat {w : Nat} (v : BitVec w) (k : Nat) : (v.extractLsb' k 8).toNat = v.toNat / 2 ^ k % 256 := by
  rw [BitVec.extractLsb'_toNat, Nat.shiftRight_eq_div_pow]

/-- A byte of `Enc64` (R101). -/
theorem getD_enc64 (v : Word) {k : Nat} (hk : k < 8) : (enc64 v).getD k 0#8 = wordByte v k := by
  simp [enc64, List.getD_eq_getElem?_getD, List.getElem?_range hk]

end Sys2Proof.Machine
end

