-- ==== Sys2Proof/Laws/Compressor.lean ====
section
/-! SUPPORT. The message schedule, kept newest word first. -/

namespace Sys2Proof.Machine

theorem length_roundConstants : roundConstants.length = 80 := rfl

/-- Extending puts new words in front of those there are. -/
theorem extendSchedule_front (k : Nat) :
    ∀ ws : List Word, ∃ newer, extendSchedule k ws = newer ++ ws ∧ newer.length = k := by
  induction k with
  | zero => exact fun ws => ⟨[], rfl, rfl⟩
  | succ k ih =>
    intro ws
    obtain ⟨newer, h, hl⟩ := ih (nextScheduleWord ws :: ws)
    exact ⟨newer ++ [nextScheduleWord ws], by rw [extendSchedule, h]; simp, by simp [hl]⟩

/-- The next word reads no more than the 16 newest. -/
theorem nextScheduleWord_append (ws older : List Word) (h : 16 ≤ ws.length) :
    nextScheduleWord (ws ++ older) = nextScheduleWord ws := by
  simp only [nextScheduleWord]
  rw [List.getD_append _ _ _ _ (by omega), List.getD_append _ _ _ _ (by omega), List.getD_append _ _ _ _ (by omega),
    List.getD_append _ _ _ _ (by omega)]

theorem extendSchedule_append (k : Nat) :
    ∀ ws older : List Word, 16 ≤ ws.length → extendSchedule k (ws ++ older) = extendSchedule k ws ++ older := by
  induction k with
  | zero => exact fun _ _ _ => rfl
  | succ k ih =>
    intro ws older h
    rw [extendSchedule, extendSchedule, nextScheduleWord_append ws older h, ← List.cons_append,
      ih _ _ (by rw [List.length_cons]; omega)]

theorem extendSchedule_add (j k : Nat) : ∀ ws, extendSchedule (j + k) ws = extendSchedule k (extendSchedule j ws) := by
  induction j with
  | zero => intro ws; rw [Nat.zero_add, extendSchedule]
  | succ j ih => intro ws; rw [Nat.succ_add, extendSchedule, extendSchedule, ih]

end Sys2Proof.Machine
end

