-- ==== Sys2Proof/Laws/State.lean ====
section
/-! SUPPORT. One lemma per field per update of the state: what each shared operation makes of each field, so that no later
proof unfolds a record update. -/

namespace Sys2Proof.Machine

/-! ### respond -/

@[simp] theorem respond_phase (ok : Bool) (digest : List Byte) (s : State) :
    (respond ok digest s).phase = s.phase := rfl
@[simp] theorem respond_cause (ok : Bool) (digest : List Byte) (s : State) :
    (respond ok digest s).cause = s.cause := rfl
@[simp] theorem respond_h (ok : Bool) (digest : List Byte) (s : State) : (respond ok digest s).h = s.h := rfl
@[simp] theorem respond_cntHi (ok : Bool) (digest : List Byte) (s : State) :
    (respond ok digest s).cntHi = s.cntHi := rfl
@[simp] theorem respond_cntLo (ok : Bool) (digest : List Byte) (s : State) :
    (respond ok digest s).cntLo = s.cntLo := rfl
@[simp] theorem respond_buf (ok : Bool) (digest : List Byte) (s : State) : (respond ok digest s).buf = s.buf := rfl
@[simp] theorem respond_blen (ok : Bool) (digest : List Byte) (s : State) : (respond ok digest s).blen = s.blen := rfl
@[simp] theorem respond_inbox (ok : Bool) (digest : List Byte) (s : State) :
    (respond ok digest s).inbox = s.inbox := rfl
@[simp] theorem respond_outbox (ok : Bool) (digest : List Byte) (s : State) :
    (respond ok digest s).outbox = s.outbox ++ [{ status := statusWord s.phase s.cause ok, digest := digest }] := rfl

/-! ### scrub -/

@[simp] theorem scrub_phase (s : State) : (scrub s).phase = s.phase := rfl
@[simp] theorem scrub_cause (s : State) : (scrub s).cause = s.cause := rfl
@[simp] theorem scrub_h (s : State) : (scrub s).h = Chain.zero := rfl
@[simp] theorem scrub_cntHi (s : State) : (scrub s).cntHi = 0#64 := rfl
@[simp] theorem scrub_cntLo (s : State) : (scrub s).cntLo = 0#64 := rfl
@[simp] theorem scrub_buf (s : State) : (scrub s).buf = Memory.zero := rfl
@[simp] theorem scrub_blen (s : State) : (scrub s).blen = 0#7 := rfl
@[simp] theorem scrub_inbox (s : State) : (scrub s).inbox = s.inbox := rfl
@[simp] theorem scrub_outbox (s : State) : (scrub s).outbox = s.outbox := rfl

/-! ### raiseFault -/

@[simp] theorem raiseFault_phase (c : FaultCause) (s : State) : (raiseFault c s).phase = .fault := rfl
@[simp] theorem raiseFault_cause (c : FaultCause) (s : State) : (raiseFault c s).cause = c.code := rfl
@[simp] theorem raiseFault_h (c : FaultCause) (s : State) : (raiseFault c s).h = Chain.zero := rfl
@[simp] theorem raiseFault_cntHi (c : FaultCause) (s : State) : (raiseFault c s).cntHi = 0#64 := rfl
@[simp] theorem raiseFault_cntLo (c : FaultCause) (s : State) : (raiseFault c s).cntLo = 0#64 := rfl
@[simp] theorem raiseFault_buf (c : FaultCause) (s : State) : (raiseFault c s).buf = Memory.zero := rfl
@[simp] theorem raiseFault_blen (c : FaultCause) (s : State) : (raiseFault c s).blen = 0#7 := rfl
@[simp] theorem raiseFault_inbox (c : FaultCause) (s : State) : (raiseFault c s).inbox = s.inbox := rfl
@[simp] theorem raiseFault_outbox (c : FaultCause) (s : State) :
    (raiseFault c s).outbox = s.outbox ++ [{ status := statusWord .fault c.code false, digest := zeros 64 }] := rfl

/-! ### refuse -/

@[simp] theorem refuse_phase (s : State) : (refuse s).phase = s.phase := rfl
@[simp] theorem refuse_cause (s : State) : (refuse s).cause = s.cause := rfl
@[simp] theorem refuse_h (s : State) : (refuse s).h = s.h := rfl
@[simp] theorem refuse_cntHi (s : State) : (refuse s).cntHi = s.cntHi := rfl
@[simp] theorem refuse_cntLo (s : State) : (refuse s).cntLo = s.cntLo := rfl
@[simp] theorem refuse_buf (s : State) : (refuse s).buf = s.buf := rfl
@[simp] theorem refuse_blen (s : State) : (refuse s).blen = s.blen := rfl
@[simp] theorem refuse_inbox (s : State) : (refuse s).inbox = s.inbox := rfl
@[simp] theorem refuse_outbox (s : State) :
    (refuse s).outbox = s.outbox ++ [{ status := statusWord s.phase s.cause false, digest := zeros 64 }] := rfl

/-! ### hardwareReset -/

@[simp] theorem hardwareReset_phase (s : State) : (hardwareReset s).phase = .uninit := rfl
@[simp] theorem hardwareReset_cause (s : State) : (hardwareReset s).cause = 0#4 := rfl
@[simp] theorem hardwareReset_h (s : State) : (hardwareReset s).h = Chain.zero := rfl
@[simp] theorem hardwareReset_cntHi (s : State) : (hardwareReset s).cntHi = 0#64 := rfl
@[simp] theorem hardwareReset_cntLo (s : State) : (hardwareReset s).cntLo = 0#64 := rfl
@[simp] theorem hardwareReset_buf (s : State) : (hardwareReset s).buf = Memory.zero := rfl
@[simp] theorem hardwareReset_blen (s : State) : (hardwareReset s).blen = 0#7 := rfl
@[simp] theorem hardwareReset_inbox (s : State) : (hardwareReset s).inbox = s.inbox := rfl
@[simp] theorem hardwareReset_outbox (s : State) : (hardwareReset s).outbox = s.outbox := rfl

/-! ### freshContext -/

@[simp] theorem freshContext_phase (s : State) : (freshContext s).phase = .ready := rfl
@[simp] theorem freshContext_cause (s : State) : (freshContext s).cause = s.cause := rfl
@[simp] theorem freshContext_h (s : State) : (freshContext s).h = iv := rfl
@[simp] theorem freshContext_cntHi (s : State) : (freshContext s).cntHi = 0#64 := rfl
@[simp] theorem freshContext_cntLo (s : State) : (freshContext s).cntLo = 0#64 := rfl
@[simp] theorem freshContext_buf (s : State) : (freshContext s).buf = Memory.zero := rfl
@[simp] theorem freshContext_blen (s : State) : (freshContext s).blen = 0#7 := rfl
@[simp] theorem freshContext_inbox (s : State) : (freshContext s).inbox = s.inbox := rfl
@[simp] theorem freshContext_outbox (s : State) : (freshContext s).outbox = s.outbox := rfl

/-! ### addCount -/

@[simp] theorem addCount_phase (n : Nat) (s : State) : (addCount n s).phase = s.phase := rfl
@[simp] theorem addCount_cause (n : Nat) (s : State) : (addCount n s).cause = s.cause := rfl
@[simp] theorem addCount_h (n : Nat) (s : State) : (addCount n s).h = s.h := rfl
@[simp] theorem addCount_cntHi (n : Nat) (s : State) :
    (addCount n s).cntHi = s.cntHi + BitVec.ofNat 64 ((s.cntLo.toNat + 8 * n) / 2 ^ 64) := rfl
@[simp] theorem addCount_cntLo (n : Nat) (s : State) :
    (addCount n s).cntLo = BitVec.ofNat 64 (s.cntLo.toNat + 8 * n) := rfl
@[simp] theorem addCount_buf (n : Nat) (s : State) : (addCount n s).buf = s.buf := rfl
@[simp] theorem addCount_blen (n : Nat) (s : State) : (addCount n s).blen = s.blen := rfl
@[simp] theorem addCount_inbox (n : Nat) (s : State) : (addCount n s).inbox = s.inbox := rfl
@[simp] theorem addCount_outbox (n : Nat) (s : State) : (addCount n s).outbox = s.outbox := rfl

/-! ### appendBytes -/

@[simp] theorem appendBytes_phase (x : List Byte) (s : State) : (appendBytes x s).phase = s.phase := rfl
@[simp] theorem appendBytes_cause (x : List Byte) (s : State) : (appendBytes x s).cause = s.cause := rfl
@[simp] theorem appendBytes_h (x : List Byte) (s : State) : (appendBytes x s).h = s.h := rfl
@[simp] theorem appendBytes_cntHi (x : List Byte) (s : State) : (appendBytes x s).cntHi = s.cntHi := rfl
@[simp] theorem appendBytes_cntLo (x : List Byte) (s : State) : (appendBytes x s).cntLo = s.cntLo := rfl
@[simp] theorem appendBytes_buf (x : List Byte) (s : State) : (appendBytes x s).buf = s.buf.writeBytes s.blen x := rfl
@[simp] theorem appendBytes_blen (x : List Byte) (s : State) :
    (appendBytes x s).blen = s.blen + BitVec.ofNat 7 x.length := rfl
@[simp] theorem appendBytes_inbox (x : List Byte) (s : State) : (appendBytes x s).inbox = s.inbox := rfl
@[simp] theorem appendBytes_outbox (x : List Byte) (s : State) : (appendBytes x s).outbox = s.outbox := rfl

/-! ### Fields other than the context

Stated for an update by variables, so that the kernel never unfolds a compression to compare two fields. -/

theorem State.update_phase (s : State) (c : Chain) (m : Memory) (l : Offset) :
    State.phase { s with h := c, buf := m, blen := l } = s.phase := rfl
theorem State.update_cause (s : State) (c : Chain) (m : Memory) (l : Offset) :
    State.cause { s with h := c, buf := m, blen := l } = s.cause := rfl
theorem State.update_cntHi (s : State) (c : Chain) (m : Memory) (l : Offset) :
    State.cntHi { s with h := c, buf := m, blen := l } = s.cntHi := rfl
theorem State.update_cntLo (s : State) (c : Chain) (m : Memory) (l : Offset) :
    State.cntLo { s with h := c, buf := m, blen := l } = s.cntLo := rfl
theorem State.update_inbox (s : State) (c : Chain) (m : Memory) (l : Offset) :
    State.inbox { s with h := c, buf := m, blen := l } = s.inbox := rfl
theorem State.update_outbox (s : State) (c : Chain) (m : Memory) (l : Offset) :
    State.outbox { s with h := c, buf := m, blen := l } = s.outbox := rfl

/-! ### compressBuffer -/

@[simp] theorem compressBuffer_phase (s : State) : (compressBuffer s).phase = s.phase := State.update_phase s _ _ _
@[simp] theorem compressBuffer_cause (s : State) : (compressBuffer s).cause = s.cause := State.update_cause s _ _ _
@[simp] theorem compressBuffer_cntHi (s : State) : (compressBuffer s).cntHi = s.cntHi := State.update_cntHi s _ _ _
@[simp] theorem compressBuffer_cntLo (s : State) : (compressBuffer s).cntLo = s.cntLo := State.update_cntLo s _ _ _
@[simp] theorem compressBuffer_inbox (s : State) : (compressBuffer s).inbox = s.inbox := State.update_inbox s _ _ _
@[simp] theorem compressBuffer_outbox (s : State) : (compressBuffer s).outbox = s.outbox := State.update_outbox s _ _ _

theorem State.update_buf (s : State) (c : Chain) (m : Memory) (l : Offset) :
    State.buf { s with h := c, buf := m, blen := l } = m := rfl
theorem State.update_blen (s : State) (c : Chain) (m : Memory) (l : Offset) :
    State.blen { s with h := c, buf := m, blen := l } = l := rfl
theorem State.update_h (s : State) (c : Chain) (m : Memory) (l : Offset) :
    State.h { s with h := c, buf := m, blen := l } = c := rfl

@[simp] theorem compressBuffer_h (s : State) : (compressBuffer s).h = compress s.h s.buf.block :=
  State.update_h s _ _ _
@[simp] theorem compressBuffer_buf (s : State) : (compressBuffer s).buf = s.buf := State.update_buf s _ _ _
@[simp] theorem compressBuffer_blen (s : State) : (compressBuffer s).blen = s.blen := State.update_blen s _ _ _

/-! ### fillAndCompress -/

@[simp] theorem fillAndCompress_phase (x : List Byte) (s : State) : (fillAndCompress x s).phase = s.phase :=
  State.update_phase s _ _ _
@[simp] theorem fillAndCompress_cause (x : List Byte) (s : State) : (fillAndCompress x s).cause = s.cause :=
  State.update_cause s _ _ _
@[simp] theorem fillAndCompress_cntHi (x : List Byte) (s : State) : (fillAndCompress x s).cntHi = s.cntHi :=
  State.update_cntHi s _ _ _
@[simp] theorem fillAndCompress_cntLo (x : List Byte) (s : State) : (fillAndCompress x s).cntLo = s.cntLo :=
  State.update_cntLo s _ _ _
@[simp] theorem fillAndCompress_inbox (x : List Byte) (s : State) : (fillAndCompress x s).inbox = s.inbox :=
  State.update_inbox s _ _ _
@[simp] theorem fillAndCompress_outbox (x : List Byte) (s : State) : (fillAndCompress x s).outbox = s.outbox :=
  State.update_outbox s _ _ _

/-! ### writeLength -/

@[simp] theorem writeLength_phase (s : State) : (writeLength s).phase = s.phase := rfl
@[simp] theorem writeLength_cause (s : State) : (writeLength s).cause = s.cause := rfl
@[simp] theorem writeLength_h (s : State) : (writeLength s).h = s.h := rfl
@[simp] theorem writeLength_cntHi (s : State) : (writeLength s).cntHi = s.cntHi := rfl
@[simp] theorem writeLength_cntLo (s : State) : (writeLength s).cntLo = s.cntLo := rfl
@[simp] theorem writeLength_buf (s : State) :
    (writeLength s).buf = (s.buf.writeBytes 112#7 (enc64 s.cntHi)).writeBytes 120#7 (enc64 s.cntLo) := rfl
@[simp] theorem writeLength_blen (s : State) : (writeLength s).blen = s.blen := rfl
@[simp] theorem writeLength_inbox (s : State) : (writeLength s).inbox = s.inbox := rfl
@[simp] theorem writeLength_outbox (s : State) : (writeLength s).outbox = s.outbox := rfl

theorem fillAndCompress_buf (x : List Byte) (s : State) :
    (fillAndCompress x s).buf =
      (s.buf.writeBytes s.blen (x.take (128 - s.blen.toNat))).writeBytes 0#7
        (compressBlocks ((x.drop (128 - s.blen.toNat)).length / 128)
          (compress s.h (s.buf.writeBytes s.blen (x.take (128 - s.blen.toNat))).block)
          (x.drop (128 - s.blen.toNat))).2 := State.update_buf s _ _ _
theorem fillAndCompress_blen (x : List Byte) (s : State) :
    (fillAndCompress x s).blen =
      BitVec.ofNat 7 (compressBlocks ((x.drop (128 - s.blen.toNat)).length / 128)
        (compress s.h (s.buf.writeBytes s.blen (x.take (128 - s.blen.toNat))).block)
        (x.drop (128 - s.blen.toNat))).2.length := State.update_blen s _ _ _

/-! ### updateBytes -/

theorem updateBytes_append {x : List Byte} {s : State} (h : s.blen.toNat + x.length < 128) :
    updateBytes x s = appendBytes x (addCount x.length s) := if_pos h

theorem updateBytes_fill {x : List Byte} {s : State} (h : 128 ≤ s.blen.toNat + x.length) :
    updateBytes x s = fillAndCompress x (addCount x.length s) := if_neg (by omega)

@[simp] theorem updateBytes_phase (x : List Byte) (s : State) :
    (updateBytes x s).phase = s.phase := by
  unfold updateBytes; split <;> simp
@[simp] theorem updateBytes_cause (x : List Byte) (s : State) :
    (updateBytes x s).cause = s.cause := by
  unfold updateBytes; split <;> simp
@[simp] theorem updateBytes_cntHi (x : List Byte) (s : State) :
    (updateBytes x s).cntHi = (addCount x.length s).cntHi := by
  unfold updateBytes; split <;> simp
@[simp] theorem updateBytes_cntLo (x : List Byte) (s : State) :
    (updateBytes x s).cntLo = (addCount x.length s).cntLo := by
  unfold updateBytes; split <;> simp
@[simp] theorem updateBytes_inbox (x : List Byte) (s : State) :
    (updateBytes x s).inbox = s.inbox := by
  unfold updateBytes; split <;> simp
@[simp] theorem updateBytes_outbox (x : List Byte) (s : State) :
    (updateBytes x s).outbox = s.outbox := by
  unfold updateBytes; split <;> simp

/-! ### pad -/

@[simp] theorem padOneBlock_phase (s : State) : (padOneBlock s).phase = s.phase := rfl
@[simp] theorem padOneBlock_cause (s : State) : (padOneBlock s).cause = s.cause := rfl
@[simp] theorem padOneBlock_cntHi (s : State) : (padOneBlock s).cntHi = s.cntHi := rfl
@[simp] theorem padOneBlock_cntLo (s : State) : (padOneBlock s).cntLo = s.cntLo := rfl
@[simp] theorem padOneBlock_inbox (s : State) : (padOneBlock s).inbox = s.inbox := rfl
@[simp] theorem padOneBlock_outbox (s : State) : (padOneBlock s).outbox = s.outbox := rfl
@[simp] theorem padOneBlock_blen (s : State) : (padOneBlock s).blen = s.blen := rfl
@[simp] theorem padOneBlock_h (s : State) : (padOneBlock s).h = s.h := rfl
theorem padOneBlock_buf (s : State) : (padOneBlock s).buf = markedBuffer s (111 - s.blen.toNat) := rfl
theorem padTwoBlocks_h (s : State) :
    (padTwoBlocks s).h = compress s.h (markedBuffer s (127 - s.blen.toNat)).block := State.update_h s _ _ _
theorem padTwoBlocks_buf (s : State) :
    (padTwoBlocks s).buf = (markedBuffer s (127 - s.blen.toNat)).writeBytes 0#7 (zeros 112) := State.update_buf s _ _ _

@[simp] theorem padTwoBlocks_phase (s : State) : (padTwoBlocks s).phase = s.phase := State.update_phase s _ _ _
@[simp] theorem padTwoBlocks_cause (s : State) : (padTwoBlocks s).cause = s.cause := State.update_cause s _ _ _
@[simp] theorem padTwoBlocks_cntHi (s : State) : (padTwoBlocks s).cntHi = s.cntHi := State.update_cntHi s _ _ _
@[simp] theorem padTwoBlocks_cntLo (s : State) : (padTwoBlocks s).cntLo = s.cntLo := State.update_cntLo s _ _ _
@[simp] theorem padTwoBlocks_inbox (s : State) : (padTwoBlocks s).inbox = s.inbox := State.update_inbox s _ _ _
@[simp] theorem padTwoBlocks_outbox (s : State) : (padTwoBlocks s).outbox = s.outbox := State.update_outbox s _ _ _

theorem pad_short_eq {s : State} (h : s.blen.toNat ≤ 111) : pad s = padOneBlock s := if_neg (by omega)

theorem pad_long_eq {s : State} (h : 112 ≤ s.blen.toNat) : pad s = padTwoBlocks s := if_pos (by omega)

@[simp] theorem pad_phase (s : State) : (pad s).phase = s.phase := by unfold pad; split <;> simp
@[simp] theorem pad_cause (s : State) : (pad s).cause = s.cause := by unfold pad; split <;> simp
@[simp] theorem pad_cntHi (s : State) : (pad s).cntHi = s.cntHi := by unfold pad; split <;> simp
@[simp] theorem pad_cntLo (s : State) : (pad s).cntLo = s.cntLo := by unfold pad; split <;> simp
@[simp] theorem pad_inbox (s : State) : (pad s).inbox = s.inbox := by unfold pad; split <;> simp
@[simp] theorem pad_outbox (s : State) : (pad s).outbox = s.outbox := by unfold pad; split <;> simp

/-! ### finishHash -/

@[simp] theorem finishHash_phase (s : State) : (finishHash s).phase = s.phase := by
  simp [finishHash]
@[simp] theorem finishHash_cause (s : State) : (finishHash s).cause = s.cause := by
  simp [finishHash]
@[simp] theorem finishHash_cntHi (s : State) : (finishHash s).cntHi = s.cntHi := by
  simp [finishHash]
@[simp] theorem finishHash_cntLo (s : State) : (finishHash s).cntLo = s.cntLo := by
  simp [finishHash]
@[simp] theorem finishHash_inbox (s : State) : (finishHash s).inbox = s.inbox := by
  simp [finishHash]
@[simp] theorem finishHash_outbox (s : State) : (finishHash s).outbox = s.outbox := by
  simp [finishHash]

/-! ### finalizeContext -/

@[simp] theorem finalizeContext_phase (s : State) : (finalizeContext s).phase = .finalized := rfl
@[simp] theorem finalizeContext_cause (s : State) : (finalizeContext s).cause = s.cause := rfl
@[simp] theorem finalizeContext_h (s : State) : (finalizeContext s).h = Chain.zero := rfl
@[simp] theorem finalizeContext_cntHi (s : State) : (finalizeContext s).cntHi = 0#64 := rfl
@[simp] theorem finalizeContext_cntLo (s : State) : (finalizeContext s).cntLo = 0#64 := rfl
@[simp] theorem finalizeContext_buf (s : State) : (finalizeContext s).buf = Memory.zero := rfl
@[simp] theorem finalizeContext_blen (s : State) : (finalizeContext s).blen = 0#7 := rfl
@[simp] theorem finalizeContext_inbox (s : State) : (finalizeContext s).inbox = s.inbox := rfl
@[simp] theorem finalizeContext_outbox (s : State) :
    (finalizeContext s).outbox = s.outbox ++
      [{ status := statusWord .finalized s.cause true, digest := digestBytes (finishHash s).h }] := rfl

/-- A state is its nine fields. -/
theorem State.eq_mk {s : State} {p : Phase} {c : BitVec 4} {h : Chain} {hi lo : Word} {m : Memory} {l : Offset}
    {ins : List HostMove} {outs : List Response} (hp : s.phase = p) (hc : s.cause = c) (hh : s.h = h)
    (hhi : s.cntHi = hi) (hlo : s.cntLo = lo) (hm : s.buf = m) (hl : s.blen = l) (hi' : s.inbox = ins)
    (ho : s.outbox = outs) : s = ⟨p, c, h, hi, lo, m, l, ins, outs⟩ := by
  subst hp hc hh hhi hlo hm hl hi' ho
  rfl

/-! ### The status words of faults -/

theorem statusWord_illegalCmd : statusWord .fault 1#4 false = 0x00000013#32 := by decide

theorem statusWord_useBeforeInit : statusWord .fault 2#4 false = 0x00000023#32 := by decide

theorem statusWord_useAfterFinalize : statusWord .fault 3#4 false = 0x00000033#32 := by decide

end Sys2Proof.Machine
end

