-- ==== Sys2Proof/Laws/Exec.lean ====
section
/-! SUPPORT. What `exec` and `step` can do, said once: the result of each meaning in each phase, and the inversion of a
step. -/

namespace Sys2Proof.Machine

/-! ### The phase check -/

theorem whenReady_fault {f : State → State} {s : State} (h : s.phase = .fault) : whenReady f s = refuse s := by
  simp [whenReady, h]

theorem whenReady_uninit {f : State → State} {s : State} (h : s.phase = .uninit) :
    whenReady f s = raiseFault .useBeforeInit s := by simp [whenReady, h]

theorem whenReady_finalized {f : State → State} {s : State} (h : s.phase = .finalized) :
    whenReady f s = raiseFault .useAfterFinalize s := by simp [whenReady, h]

theorem whenReady_ready {f : State → State} {s : State} (h : s.phase = .ready) : whenReady f s = f s := by
  simp [whenReady, h]

/-- Everything the phase check can do. -/
theorem whenReady_cases (f : State → State) (s : State) :
    (s.phase = .fault ∧ whenReady f s = refuse s) ∨
      (s.phase = .uninit ∧ whenReady f s = raiseFault .useBeforeInit s) ∨
      (s.phase = .finalized ∧ whenReady f s = raiseFault .useAfterFinalize s) ∨
      (s.phase = .ready ∧ whenReady f s = f s) := by
  cases h : s.phase <;> simp [whenReady, h]

theorem rejectIllegal_fault {s : State} (h : s.phase = .fault) : rejectIllegal s = refuse s := if_pos h

theorem rejectIllegal_live {s : State} (h : s.phase ≠ .fault) : rejectIllegal s = raiseFault .illegalCmd s := if_neg h

/-! ### The meanings -/

theorem exec_status (s : State) : exec .status s = .next (respond true (zeros 64) s) := rfl

theorem exec_init_live {s : State} (h : s.phase ≠ .fault) :
    exec .init s = .next (respond true (zeros 64) (freshContext s)) := if_neg h

theorem exec_init_fault {s : State} (h : s.phase = .fault) : exec .init s = .next (refuse s) := if_pos h

theorem exec_update_legal {n : BitVec 4} (h : n ≤ 8#4) (data : Word) (s : State) :
    exec (.update n data) s =
      .next (whenReady (fun r => respond true (zeros 64) (updateBytes (beat n data) r)) s) := if_pos h

theorem exec_update_illegal {n : BitVec 4} (h : ¬n ≤ 8#4) (data : Word) (s : State) :
    exec (.update n data) s = .next (rejectIllegal s) := if_neg h

theorem exec_update_ready {n : BitVec 4} (h : n ≤ 8#4) (data : Word) {s : State} (hs : s.phase = .ready) :
    exec (.update n data) s = .next (respond true (zeros 64) (updateBytes (beat n data) s)) := by
  rw [exec_update_legal h, whenReady_ready hs]

theorem exec_finalize (s : State) : exec .finalize s = .next (whenReady finalizeContext s) := rfl

theorem exec_finalize_ready {s : State} (hs : s.phase = .ready) :
    exec .finalize s = .next (finalizeContext s) := by
  rw [exec_finalize, whenReady_ready hs]

/-- Everything an instruction can do: it is refused, it faults, or it has its own effect. -/
theorem exec_cases {i : Instr} {s t : State} (h : exec i s = .next t) :
    (s.phase = .fault ∧ i ≠ .status ∧ t = refuse s) ∨
      (s.phase ≠ .fault ∧ ∃ c, t = raiseFault c s) ∨
      (i = .status ∧ t = respond true (zeros 64) s) ∨
      (i = .init ∧ s.phase ≠ .fault ∧ t = respond true (zeros 64) (freshContext s)) ∨
      (∃ n data, i = .update n data ∧ n ≤ 8#4 ∧ s.phase = .ready ∧
        t = respond true (zeros 64) (updateBytes (beat n data) s)) ∨
      (i = .finalize ∧ s.phase = .ready ∧ t = finalizeContext s) := by
  cases i with
  | status => cases h; exact .inr (.inr (.inl ⟨rfl, rfl⟩))
  | init =>
    by_cases hs : s.phase = .fault
    · rw [exec_init_fault hs] at h; cases h; exact .inl ⟨hs, by simp, rfl⟩
    · rw [exec_init_live hs] at h; cases h; exact .inr (.inr (.inr (.inl ⟨rfl, hs, rfl⟩)))
  | update n data =>
    by_cases hn : n ≤ 8
    · rw [exec_update_legal hn] at h
      obtain ⟨hs, he⟩ | ⟨hs, he⟩ | ⟨hs, he⟩ | ⟨hs, he⟩ :=
        whenReady_cases (fun r => respond true (zeros 64) (updateBytes (beat n data) r)) s
      all_goals rw [he] at h; cases h
      · exact .inl ⟨hs, by simp, rfl⟩
      · exact .inr (.inl ⟨by simp [hs], _, rfl⟩)
      · exact .inr (.inl ⟨by simp [hs], _, rfl⟩)
      · exact .inr (.inr (.inr (.inr (.inl ⟨n, data, rfl, hn, hs, rfl⟩))))
    · rw [exec_update_illegal hn] at h
      by_cases hs : s.phase = .fault
      · rw [rejectIllegal_fault hs] at h; cases h; exact .inl ⟨hs, by simp, rfl⟩
      · rw [rejectIllegal_live hs] at h; cases h; exact .inr (.inl ⟨hs, _, rfl⟩)
  | finalize =>
    rw [exec_finalize] at h
    obtain ⟨hs, he⟩ | ⟨hs, he⟩ | ⟨hs, he⟩ | ⟨hs, he⟩ := whenReady_cases finalizeContext s
    all_goals rw [he] at h; cases h
    · exact .inl ⟨hs, by simp, rfl⟩
    · exact .inr (.inl ⟨by simp [hs], _, rfl⟩)
    · exact .inr (.inl ⟨by simp [hs], _, rfl⟩)
    · exact .inr (.inr (.inr (.inr (.inr ⟨rfl, hs, rfl⟩))))

/-- Every instruction answers a next state. -/
theorem exec_next (i : Instr) (s : State) : ∃ t, exec i s = .next t := by
  cases i with
  | status => exact ⟨_, exec_status s⟩
  | init =>
    by_cases h : s.phase = .fault
    · exact ⟨_, exec_init_fault h⟩
    · exact ⟨_, exec_init_live h⟩
  | update n data =>
    by_cases h : n ≤ 8#4
    · exact ⟨_, exec_update_legal h data s⟩
    · exact ⟨_, exec_update_illegal h data s⟩
  | finalize => exact ⟨_, exec_finalize s⟩

/-- Every instruction takes no move and answers one response, whose status is computed from the state after it and
whose digest has 64 bytes. -/
theorem exec_response {i : Instr} {s t : State} (h : exec i s = .next t) :
    t.inbox = s.inbox ∧
      ∃ ok d, t.outbox = s.outbox ++ [{ status := statusWord t.phase t.cause ok, digest := d }] ∧ d.length = 64 := by
  obtain ⟨-, -, rfl⟩ | ⟨-, c, rfl⟩ | ⟨-, rfl⟩ | ⟨-, -, rfl⟩ | ⟨n, d, -, -, -, rfl⟩ | ⟨-, -, rfl⟩ := exec_cases h
  · exact ⟨rfl, false, zeros 64, refuse_outbox s, by simp [zeros]⟩
  · exact ⟨rfl, false, zeros 64, raiseFault_outbox c s, by simp [zeros]⟩
  · exact ⟨rfl, true, zeros 64, respond_outbox _ _ s, by simp [zeros]⟩
  · exact ⟨rfl, true, zeros 64, rfl, by simp [zeros]⟩
  · refine ⟨by simp, true, zeros 64, ?_, by simp [zeros]⟩
    rw [respond_outbox, respond_phase, respond_cause, updateBytes_outbox]
  · refine ⟨by simp, true, digestBytes (finishHash s).h, ?_, by simp [digestBytes, Chain.toList, enc64]⟩
    rw [finalizeContext_outbox, finalizeContext_phase, finalizeContext_cause]

/-! ### The step -/

theorem step_idle {s : State} (h : s.inbox = []) : step s = .next s := by
  simp only [step, fetch, h]

theorem step_reset {s : State} {cut : Option Command} {rest : List HostMove} (h : s.inbox = .reset cut :: rest) :
    step s = .next (hardwareReset { s with inbox := rest }) := by
  simp only [step, fetch, h]

theorem step_illegal {s : State} {c : Command} {rest : List HostMove} {e : DecodeError}
    (h : s.inbox = .command c :: rest) (hd : decode c = .error e) :
    step s = .next (rejectIllegal { s with inbox := rest }) := by
  simp only [step, fetch, h, hd]

/-- Everything a step can do. -/
theorem step_cases {s t : State} (h : step s = .next t) :
    (s.inbox = [] ∧ t = s) ∨
      (∃ cut rest, s.inbox = .reset cut :: rest ∧ t = hardwareReset { s with inbox := rest }) ∨
      (∃ c rest e, s.inbox = .command c :: rest ∧ decode c = .error e ∧
        t = rejectIllegal { s with inbox := rest }) ∨
      (∃ c rest i, s.inbox = .command c :: rest ∧ decode c = .ok i ∧ exec i { s with inbox := rest } = .next t) := by
  cases hi : s.inbox with
  | nil => rw [step_idle hi] at h; cases h; exact .inl ⟨rfl, rfl⟩
  | cons m rest =>
    cases m with
    | reset cut => rw [step_reset hi] at h; cases h; exact .inr (.inl ⟨cut, rest, rfl, rfl⟩)
    | command c =>
      cases hd : decode c with
      | error e => rw [step_illegal hi hd] at h; cases h; exact .inr (.inr (.inl ⟨c, rest, e, rfl, hd, rfl⟩))
      | ok i =>
        refine .inr (.inr (.inr ⟨c, rest, i, rfl, hd, ?_⟩))
        simpa only [step, fetch, hi, hd] using h

end Sys2Proof.Machine
end

