-- ==== Sys2Proof/Laws/Memory.lean ====
section
/-! SUPPORT. The pending buffer's storage: every operation keeps the canonical form, a read after a write gives what was
written, and two buffers in canonical form that read alike are equal. -/

namespace Sys2Proof.Machine

/-! ### Canonical form -/

@[simp] theorem Memory.wfFrom_nil (lo : Nat) : Memory.wfFrom lo [] = true := rfl

theorem Memory.wfFrom_cons {lo a : Nat} {b : Byte} {m : Memory} :
    Memory.wfFrom lo ((a, b) :: m) = true ↔ lo ≤ a ∧ a < 128 ∧ b ≠ 0#8 ∧ Memory.wfFrom (a + 1) m = true := by
  simp [Memory.wfFrom, and_assoc]

theorem Memory.wf_zero : Memory.zero.wf = true := rfl

theorem Memory.wfFrom_mono {lo lo' : Nat} (hle : lo ≤ lo') :
    ∀ {m : Memory}, Memory.wfFrom lo' m = true → Memory.wfFrom lo m = true
  | [], _ => rfl
  | (_, _) :: _, h => by
    rw [Memory.wfFrom_cons] at h ⊢
    exact ⟨hle.trans h.1, h.2⟩

theorem Memory.wfFrom_consCell {lo a : Nat} {b : Byte} {m : Memory} (hlo : lo ≤ a) (ha : a < 128)
    (hm : Memory.wfFrom (a + 1) m = true) : Memory.wfFrom lo (Memory.consCell a b m) = true := by
  unfold Memory.consCell
  split
  · exact Memory.wfFrom_mono (by omega) hm
  · next hb => exact Memory.wfFrom_cons.2 ⟨hlo, ha, hb, hm⟩

theorem Memory.wfFrom_store {a : Nat} {b : Byte} (ha : a < 128) :
    ∀ {m : Memory} {lo : Nat}, lo ≤ a → Memory.wfFrom lo m = true → Memory.wfFrom lo (m.store a b) = true
  | [], _, hlo, _ => Memory.wfFrom_consCell hlo ha rfl
  | (a', b') :: m, lo, hlo, h => by
    obtain ⟨h1, h2, h3, h4⟩ := Memory.wfFrom_cons.1 h
    unfold Memory.store
    split
    · next hlt => exact Memory.wfFrom_consCell hlo ha (Memory.wfFrom_cons.2 ⟨hlt, h2, h3, h4⟩)
    · split
      · next heq => exact Memory.wfFrom_consCell hlo ha (heq ▸ h4)
      · exact Memory.wfFrom_cons.2 ⟨h1, h2, h3, Memory.wfFrom_store ha (by omega) h4⟩

theorem Memory.wf_write {m : Memory} (o : Offset) (b : Byte) (h : m.wf = true) : (m.write o b).wf = true :=
  Memory.wfFrom_store o.isLt (Nat.zero_le _) h

theorem Memory.wf_writeBytes (x : List Byte) :
    ∀ {m : Memory} (o : Offset), m.wf = true → (m.writeBytes o x).wf = true := by
  induction x with
  | nil => exact fun _ h => h
  | cons b x ih => exact fun o h => ih (o + 1#7) (Memory.wf_write o b h)

/-! ### Reading -/

@[simp] theorem Memory.byteAt_zero (a : Nat) : Memory.zero.byteAt a = 0#8 := rfl

@[simp] theorem Memory.read_zero (o : Offset) : Memory.zero.read o = 0#8 := rfl

theorem Memory.byteAt_below {a : Nat} : ∀ {m : Memory} {lo : Nat}, Memory.wfFrom lo m = true → a < lo → m.byteAt a = 0#8
  | [], _, _, _ => rfl
  | (_, _) :: _, _, h, hlt => by
    obtain ⟨h1, -, -, h4⟩ := Memory.wfFrom_cons.1 h
    rw [Memory.byteAt, if_neg (by omega), Memory.byteAt_below h4 (by omega)]

theorem Memory.byteAt_consCell {lo a a' : Nat} {b : Byte} {m : Memory} (hm : Memory.wfFrom lo m = true) (ha : a < lo) :
    (Memory.consCell a b m).byteAt a' = if a' = a then b else m.byteAt a' := by
  unfold Memory.consCell
  split
  · next hb =>
    split
    · next heq => rw [heq, Memory.byteAt_below hm ha, hb]
    · rfl
  · rfl

theorem Memory.byteAt_store {a a' : Nat} {b : Byte} :
    ∀ {m : Memory} {lo : Nat}, Memory.wfFrom lo m = true → (m.store a b).byteAt a' = if a' = a then b else m.byteAt a'
  | [], _, _ => Memory.byteAt_consCell (lo := a + 1) rfl (by omega)
  | (c, d) :: m, _, h => by
    obtain ⟨h1, h2, h3, h4⟩ := Memory.wfFrom_cons.1 h
    unfold Memory.store
    split
    · next hlt => exact Memory.byteAt_consCell (Memory.wfFrom_cons.2 ⟨le_refl c, h2, h3, h4⟩) hlt
    · split
      · next hac =>
        subst hac
        rw [Memory.byteAt_consCell h4 (Nat.lt_succ_self a), Memory.byteAt]
        split <;> simp_all
      · next hne =>
        rw [Memory.byteAt, Memory.byteAt_store h4, Memory.byteAt]
        split
        · next hc => rw [if_neg (by omega)]
        · rfl

theorem Memory.read_write {m : Memory} (h : m.wf = true) (o p : Offset) (b : Byte) :
    (m.write o b).read p = if p = o then b else m.read p := by
  rw [Memory.read, Memory.write, Memory.byteAt_store h, Memory.read]
  simp only [BitVec.toNat_inj]

theorem Memory.byteAt_above {a : Nat} (ha : 128 ≤ a) : ∀ {m : Memory} {lo : Nat}, Memory.wfFrom lo m = true → m.byteAt a = 0#8
  | [], _, _ => rfl
  | (_, _) :: _, _, h => by
    obtain ⟨-, h2, -, h4⟩ := Memory.wfFrom_cons.1 h
    rw [Memory.byteAt, if_neg (by omega), Memory.byteAt_above ha h4]

theorem Memory.eq_of_byteAt :
    ∀ {m m' : Memory} {lo lo' : Nat}, Memory.wfFrom lo m = true → Memory.wfFrom lo' m' = true →
      (∀ a, m.byteAt a = m'.byteAt a) → m = m'
  | [], [], _, _, _, _, _ => rfl
  | [], (c, d) :: m', _, _, _, h', heq => by
    obtain ⟨-, -, h3, -⟩ := Memory.wfFrom_cons.1 h'
    exact absurd (by simpa [Memory.byteAt] using (heq c).symm) h3
  | (a, b) :: m, [], _, _, h, _, heq => by
    obtain ⟨-, -, h3, -⟩ := Memory.wfFrom_cons.1 h
    exact absurd (by simpa [Memory.byteAt] using heq a) h3
  | (a, b) :: m, (c, d) :: m', _, _, h, h', heq => by
    obtain ⟨-, -, h3, h4⟩ := Memory.wfFrom_cons.1 h
    obtain ⟨-, -, h3', h4'⟩ := Memory.wfFrom_cons.1 h'
    have hac : a = c := by
      rcases Nat.lt_trichotomy a c with hlt | rfl | hgt
      · refine absurd ?_ h3
        simpa [Memory.byteAt, Nat.ne_of_lt hlt, Memory.byteAt_below h4' (by omega : a < c + 1)] using heq a
      · rfl
      · refine absurd ?_ h3'
        simpa [Memory.byteAt, Nat.ne_of_lt hgt, Memory.byteAt_below h4 (by omega : c < a + 1)] using (heq c).symm
    subst hac
    have hbd : b = d := by simpa [Memory.byteAt] using heq a
    subst hbd
    have htail : ∀ e, Memory.byteAt m e = Memory.byteAt m' e := by
      intro e
      rcases Nat.lt_trichotomy e a with hlt | rfl | hgt
      · rw [Memory.byteAt_below h4 (by omega), Memory.byteAt_below h4' (by omega)]
      · rw [Memory.byteAt_below h4 (by omega), Memory.byteAt_below h4' (by omega)]
      · simpa [Memory.byteAt, Nat.ne_of_gt hgt] using heq e
    rw [Memory.eq_of_byteAt h4 h4' htail]

theorem Memory.eq_of_read {m m' : Memory} (h : m.wf = true) (h' : m'.wf = true) (heq : ∀ o, m.read o = m'.read o) :
    m = m' := by
  refine Memory.eq_of_byteAt h h' fun a => ?_
  rcases Nat.lt_or_ge a 128 with hlt | hge
  · have := heq (BitVec.ofNat 7 a)
    rwa [Memory.read, Memory.read, BitVec.toNat_ofNat, Nat.mod_eq_of_lt hlt] at this
  · rw [Memory.byteAt_above hge h, Memory.byteAt_above hge h']

/-! ### The block view -/

@[simp] theorem Memory.length_block (m : Memory) : m.block.length = 128 := by simp [Memory.block]

theorem Memory.getElem_block (m : Memory) (i : Nat) (hi : i < m.block.length) : m.block[i] = m.byteAt i := by
  simp [Memory.block]

theorem Memory.block_zero : Memory.zero.block = zeros 128 := by decide

theorem Memory.block_write {m : Memory} (h : m.wf = true) (o : Offset) (b : Byte) :
    (m.write o b).block = m.block.set o.toNat b := by
  refine List.ext_getElem (by simp) fun i h1 _ => ?_
  rw [Memory.getElem_block, Memory.write, Memory.byteAt_store h, List.getElem_set, Memory.getElem_block]
  simp only [eq_comm]

/-- A run of bytes written into the buffer replaces that run of the block view and nothing else. -/
theorem Memory.block_writeBytes (x : List Byte) :
    ∀ {m : Memory} (o : Offset), m.wf = true → o.toNat + x.length ≤ 128 →
      (m.writeBytes o x).block = m.block.take o.toNat ++ x ++ m.block.drop (o.toNat + x.length) := by
  induction x with
  | nil => intro m o _ _; simp [Memory.writeBytes]
  | cons b x ih =>
    intro m o h hle
    have ho : o.toNat < 128 := o.isLt
    rw [List.length_cons] at hle
    rw [Memory.writeBytes]
    by_cases hlast : o.toNat = 127
    · have : x = [] := List.eq_nil_of_length_eq_zero (by omega)
      subst this
      rw [Memory.writeBytes, Memory.block_write h, List.set_eq_take_append_cons_drop]
      simp [hlast]
    · have hsucc : (o + 1#7).toNat = o.toNat + 1 := by
        have hone : (1#7).toNat = 1 := rfl
        rw [BitVec.toNat_add, hone]
        omega
      have htake : (m.block.set o.toNat b).take (o.toNat + 1) = m.block.take o.toNat ++ [b] := by
        rw [← List.take_append_getElem (by simpa using ho), List.take_set_of_le (le_refl _), List.getElem_set_self]
      rw [ih (o + 1#7) (Memory.wf_write o b h) (by rw [hsucc]; omega), hsucc, Memory.block_write h, htake,
        List.drop_set_of_lt (by omega)]
      simp [Nat.add_assoc, Nat.add_comm x.length]

theorem Memory.byteAt_eq_block (m : Memory) (i : Nat) (hi : i < 128) : m.byteAt i = m.block.getD i 0#8 := by
  rw [List.getD_eq_getElem _ _ (by simpa using hi), Memory.getElem_block]

theorem Memory.read_eq_block (m : Memory) (o : Offset) : m.read o = m.block.getD o.toNat 0#8 :=
  Memory.byteAt_eq_block m _ o.isLt

/-- Each byte after a run of bytes is written: the run's own byte inside it, what was there before outside it. -/
theorem Memory.read_writeBytes (x : List Byte) {m : Memory} (o p : Offset) (h : m.wf = true)
    (hle : o.toNat + x.length ≤ 128) :
    (m.writeBytes o x).read p =
      if o ≤ p ∧ p.toNat < o.toNat + x.length then x.getD (p.toNat - o.toNat) 0#8 else m.read p := by
  have hp : p.toNat < 128 := p.isLt
  rw [Memory.read_eq_block, Memory.block_writeBytes x o h hle, Memory.read_eq_block, List.append_assoc]
  by_cases hop : o ≤ p
  · have hop' : o.toNat ≤ p.toNat := hop
    rw [List.getD_append_right _ _ _ _ (by simp; omega)]
    by_cases hin : p.toNat < o.toNat + x.length
    · rw [List.getD_append _ _ _ _ (by simp; omega), if_pos ⟨hop, hin⟩]
      simp [Nat.min_eq_left (by omega : o.toNat ≤ 128)]
    · rw [List.getD_append_right _ _ _ _ (by simp; omega), if_neg (by tauto)]
      simp only [List.getD_eq_getElem?_getD, List.getElem?_drop, List.length_take, Memory.length_block]
      congr 2
      omega
  · have hop' : p.toNat < o.toNat := by simpa [BitVec.le_def] using hop
    rw [List.getD_append _ _ _ _ (by simp; omega), if_neg (by tauto)]
    simp [List.getD_eq_getElem?_getD, hop']

end Sys2Proof.Machine
end

