-- ==== Sys2Proof/Laws/Context.lean ====
section
/-! SUPPORT. The context procedures on the level of byte lists: what UpdateBytes and the padding do to the chaining state
and to the message bytes in the buffer, and that they keep the buffer's canonical form. -/

namespace Sys2Proof.Machine

@[simp] theorem length_zeros (n : Nat) : (zeros n).length = n := by simp [zeros]

@[simp] theorem length_enc64 (v : Word) : (enc64 v).length = 8 := by simp [enc64]

theorem length_beat {n : BitVec 4} (h : n ≤ 8#4) (data : Word) : (beat n data).length = n.toNat := by
  have : n.toNat ≤ 8 := h
  simp [beat, this]

/-! ### Pending bytes -/

theorem length_pending (s : State) : s.pending.length = s.blen.toNat := by
  have := s.blen.isLt
  rw [State.pending, List.length_take, Memory.length_block]
  omega

/-- The message bytes in the buffer are what its first `blen` offsets read. -/
theorem getD_pending (s : State) (o : Offset) (h : o < s.blen) : s.pending.getD o.toNat 0#8 = s.buf.read o := by
  have h' : o.toNat < s.blen.toNat := h
  rw [Memory.read_eq_block, State.pending]
  simp [List.getD_eq_getElem?_getD, h']

theorem pending_eq_of_read {s t : State} (hb : s.blen = t.blen)
    (h : ∀ o : Offset, o < s.blen → s.buf.read o = t.buf.read o) : s.pending = t.pending := by
  refine List.ext_getElem (by simp [length_pending, hb]) fun i h1 h2 => ?_
  have hi : i < s.blen.toNat := by simpa [length_pending] using h1
  have hlt : (BitVec.ofNat 7 i).toNat = i := by
    rw [BitVec.toNat_ofNat]
    exact Nat.mod_eq_of_lt (hi.trans s.blen.isLt)
  have ho : BitVec.ofNat 7 i < s.blen := by rw [BitVec.lt_def, hlt]; exact hi
  have := h _ ho
  rwa [← getD_pending s _ ho, ← getD_pending t _ (hb ▸ ho), hlt, List.getD_eq_getElem _ _ h1,
    List.getD_eq_getElem _ _ h2] at this

/-- Two states hold the same context exactly if chaining state, counter, length and message bytes agree. -/
theorem sameContext_iff {s t : State} :
    SameContext s t ↔ s.h = t.h ∧ s.cntHi = t.cntHi ∧ s.cntLo = t.cntLo ∧ s.pending = t.pending := by
  constructor
  · rintro ⟨hh, hhi, hlo, hb, hr⟩
    exact ⟨hh, hhi, hlo, pending_eq_of_read hb hr⟩
  · rintro ⟨hh, hhi, hlo, hp⟩
    have hb : s.blen = t.blen := by
      have := congrArg List.length hp
      rw [length_pending, length_pending] at this
      exact BitVec.eq_of_toNat_eq this
    refine ⟨hh, hhi, hlo, hb, fun o ho => ?_⟩
    rw [← getD_pending s o ho, ← getD_pending t o (hb ▸ ho), hp]

/-! ### Blocks -/

theorem compressBlocks_snd (k : Nat) : ∀ (h : Chain) (x : List Byte), (compressBlocks k h x).2 = x.drop (128 * k) := by
  induction k with
  | zero => intro h x; simp [compressBlocks]
  | succ k ih =>
    intro h x
    rw [compressBlocks, ih, List.drop_drop]
    congr 1
    omega

/-- Compressing the blocks of a message, then those of what is left of it and more bytes, is compressing the blocks of
it all. -/
theorem compressBlocks_add (k j : Nat) :
    ∀ (h : Chain) (x : List Byte),
      compressBlocks (k + j) h x = compressBlocks j (compressBlocks k h x).1 (compressBlocks k h x).2 := by
  induction k with
  | zero => intro h x; simp [compressBlocks]
  | succ k ih =>
    intro h x
    rw [Nat.succ_add, compressBlocks, ih, compressBlocks]

/-- Bytes after the blocks compressed do not matter to them. -/
theorem compressBlocks_append (k : Nat) :
    ∀ (h : Chain) (x y : List Byte), 128 * k ≤ x.length →
      compressBlocks k h (x ++ y) = ((compressBlocks k h x).1, (compressBlocks k h x).2 ++ y) := by
  induction k with
  | zero => intro h x y _; simp [compressBlocks]
  | succ k ih =>
    intro h x y hle
    rw [compressBlocks, compressBlocks, List.take_append_of_le_length (by omega),
      List.drop_append_of_le_length (by omega), ih _ _ _ (by rw [List.length_drop]; omega)]

/-- All full blocks of `x`, and what is left. -/
theorem compressBlocks_all_append (h : Chain) (x y : List Byte) :
    compressBlocks ((x ++ y).length / 128) h (x ++ y) =
      compressBlocks (((compressBlocks (x.length / 128) h x).2 ++ y).length / 128)
        (compressBlocks (x.length / 128) h x).1 ((compressBlocks (x.length / 128) h x).2 ++ y) := by
  have hlen : (x ++ y).length / 128 =
      x.length / 128 + ((compressBlocks (x.length / 128) h x).2 ++ y).length / 128 := by
    rw [compressBlocks_snd, List.length_append, List.length_append, List.length_drop]
    omega
  rw [hlen, compressBlocks_add, compressBlocks_append _ _ _ _ (by omega)]

theorem fullBlocks_succ {x : List Byte} {k : Nat} (hk : x.length / 128 = k + 1) :
    fullBlocks x = x.take 128 :: fullBlocks (x.drop 128) := by
  have : (x.drop 128).length / 128 = k := by rw [List.length_drop]; omega
  rw [fullBlocks, fullBlocks, hk, this, List.range_succ_eq_map]
  simp only [List.map_cons, List.map_map, Nat.mul_zero, List.drop_zero, List.cons.injEq, true_and]
  refine List.map_congr_left fun j _ => ?_
  simp only [Function.comp, List.drop_drop]
  congr 2
  omega

theorem compressBlocks_fst_eq_foldl (k : Nat) :
    ∀ (h : Chain) (x : List Byte), x.length / 128 = k → (compressBlocks k h x).1 = (fullBlocks x).foldl compress h := by
  induction k with
  | zero => intro h x hk; simp [compressBlocks, fullBlocks, hk]
  | succ k ih =>
    intro h x hk
    rw [fullBlocks_succ hk, List.foldl_cons, compressBlocks, ih _ _ (by rw [List.length_drop]; omega)]

theorem length_fullBlocks (x : List Byte) : (fullBlocks x).length = x.length / 128 := by simp [fullBlocks]

theorem length_of_mem_fullBlocks {x b : List Byte} (h : b ∈ fullBlocks x) : b.length = 128 := by
  simp only [fullBlocks, List.mem_map, List.mem_range] at h
  obtain ⟨j, hj, rfl⟩ := h
  rw [List.length_take, List.length_drop]
  omega

/-- A byte string of whole blocks is its full blocks, concatenated. -/
theorem flatten_fullBlocks (k : Nat) : ∀ x : List Byte, x.length = 128 * k → (fullBlocks x).flatten = x := by
  induction k with
  | zero =>
    intro x h
    rw [List.length_eq_zero_iff.1 h]
    rfl
  | succ k ih =>
    intro x h
    rw [fullBlocks_succ (k := k) (by omega), List.flatten_cons, ih _ (by rw [List.length_drop]; omega),
      List.take_append_drop]

theorem length_paddedTail (s : State) : (paddedTail s).length = if s.blen.toNat ≤ 111 then 128 else 256 := by
  have hb := s.blen.isLt
  simp only [paddedTail, List.length_append, length_pending, length_zeros, length_enc64, List.length_singleton, zeroFill]
  split <;> omega

theorem compressedBlocks_update {n : BitVec 4} {s : State} (hn : n ≤ 8#4) (hs : s.phase = .ready) (data : Word) :
    compressedBlocks (.update n data) s = fullBlocks (s.pending ++ beat n data) := if_pos ⟨hn, hs⟩

theorem compressedBlocks_finalize {s : State} (hs : s.phase = .ready) :
    compressedBlocks .finalize s = fullBlocks (paddedTail s) := if_pos hs

/-! ### The counter -/

theorem cnt_toNat (s : State) : s.cnt.toNat = s.cntHi.toNat * 2 ^ 64 + s.cntLo.toNat := by
  rw [State.cnt, BitVec.toNat_append, ← Nat.shiftLeft_add_eq_or_of_lt s.cntLo.isLt, Nat.shiftLeft_eq]

theorem addCount_cnt (n : Nat) (s : State) : (addCount n s).cnt = s.cnt + BitVec.ofNat 128 (8 * n) := by
  apply BitVec.eq_of_toNat_eq
  have hlo := s.cntLo.isLt
  have hhi := s.cntHi.isLt
  rw [cnt_toNat, BitVec.toNat_add, cnt_toNat, BitVec.toNat_ofNat, addCount_cntHi, addCount_cntLo, BitVec.toNat_add,
    BitVec.toNat_ofNat, BitVec.toNat_ofNat]
  omega

/-- Counting in two parts is counting at once. -/
theorem addCount_addCount (m n : Nat) (s : State) : addCount n (addCount m s) = addCount (m + n) s := by
  have hlo := s.cntLo.isLt
  have e1 : BitVec.ofNat 64 ((s.cntLo.toNat + 8 * m) % 2 ^ 64 + 8 * n) =
      BitVec.ofNat 64 (s.cntLo.toNat + 8 * (m + n)) := by
    apply BitVec.eq_of_toNat_eq
    simp only [BitVec.toNat_ofNat]
    omega
  have e2 : s.cntHi + BitVec.ofNat 64 ((s.cntLo.toNat + 8 * m) / 2 ^ 64) +
      BitVec.ofNat 64 (((s.cntLo.toNat + 8 * m) % 2 ^ 64 + 8 * n) / 2 ^ 64) =
      s.cntHi + BitVec.ofNat 64 ((s.cntLo.toNat + 8 * (m + n)) / 2 ^ 64) := by
    apply BitVec.eq_of_toNat_eq
    simp only [BitVec.toNat_add, BitVec.toNat_ofNat]
    omega
  simp only [addCount, BitVec.toNat_ofNat, e1, e2]

/-! ### UpdateBytes -/

theorem updateBytes_wf (x : List Byte) {s : State} (h : s.buf.wf = true) : (updateBytes x s).buf.wf = true := by
  by_cases hlt : s.blen.toNat + x.length < 128
  · rw [updateBytes_append hlt]
    exact Memory.wf_writeBytes _ _ h
  · rw [updateBytes_fill (by omega)]
    exact Memory.wf_writeBytes _ _ (Memory.wf_writeBytes _ _ h)

/-- What UpdateBytes makes of the context, with `y` the message bytes in the buffer followed by `x`: every full
block of `y` is compressed, and what is left of `y` stays in the buffer. -/
theorem updateBytes_spec (x : List Byte) {s : State} (h : s.buf.wf = true) :
    (updateBytes x s).h = (compressBlocks ((s.pending ++ x).length / 128) s.h (s.pending ++ x)).1 ∧
      (updateBytes x s).pending = (compressBlocks ((s.pending ++ x).length / 128) s.h (s.pending ++ x)).2 ∧
      (updateBytes x s).blen.toNat = (s.blen.toNat + x.length) % 128 := by
  have hb : s.blen.toNat < 128 := s.blen.isLt
  have hlen : (s.pending ++ x).length = s.blen.toNat + x.length := by rw [List.length_append, length_pending]
  by_cases hlt : s.blen.toNat + x.length < 128
  · rw [updateBytes_append hlt, hlen, Nat.div_eq_of_lt hlt]
    have hbl : (s.blen + BitVec.ofNat 7 x.length).toNat = s.blen.toNat + x.length := by
      rw [BitVec.toNat_add, BitVec.toNat_ofNat]
      omega
    refine ⟨rfl, ?_, ?_⟩
    · rw [State.pending, appendBytes_buf, appendBytes_blen, addCount_buf, addCount_blen, hbl,
        Memory.block_writeBytes x s.blen h (by omega), List.take_append_of_le_length (by simp; omega),
        List.take_of_length_le (by simp)]
      rfl
    · rw [appendBytes_blen, addCount_blen, hbl, Nat.mod_eq_of_lt hlt]
  · have hge : 128 ≤ s.blen.toNat + x.length := by omega
    have hroom : (x.take (128 - s.blen.toNat)).length = 128 - s.blen.toNat := by simp; omega
    have hfull : (s.buf.writeBytes s.blen (x.take (128 - s.blen.toNat))).block =
        s.pending ++ x.take (128 - s.blen.toNat) := by
      rw [Memory.block_writeBytes _ _ h (by omega), hroom, List.drop_of_length_le (by simp; omega), List.append_nil]
      rfl
    have hdiv : (s.pending ++ x).length / 128 = (x.drop (128 - s.blen.toNat)).length / 128 + 1 := by
      rw [hlen, List.length_drop]
      omega
    have hsplit : compressBlocks ((s.pending ++ x).length / 128) s.h (s.pending ++ x) =
        compressBlocks ((x.drop (128 - s.blen.toNat)).length / 128)
          (compress s.h (s.buf.writeBytes s.blen (x.take (128 - s.blen.toNat))).block)
          (x.drop (128 - s.blen.toNat)) := by
      have htake : (s.pending ++ x).take 128 = s.pending ++ x.take (128 - s.blen.toNat) := by
        rw [List.take_append, length_pending, List.take_of_length_le (by rw [length_pending]; omega)]
      have hdrop : (s.pending ++ x).drop 128 = x.drop (128 - s.blen.toNat) := by
        rw [List.drop_append, length_pending, List.drop_of_length_le (by rw [length_pending]; omega), List.nil_append]
      rw [hdiv, compressBlocks, hfull, htake, hdrop]
    have hrest : (compressBlocks ((x.drop (128 - s.blen.toNat)).length / 128)
          (compress s.h (s.buf.writeBytes s.blen (x.take (128 - s.blen.toNat))).block)
          (x.drop (128 - s.blen.toNat))).2.length = (s.blen.toNat + x.length) % 128 := by
      rw [compressBlocks_snd]
      simp only [List.length_drop]
      omega
    rw [updateBytes_fill hge, hsplit]
    refine ⟨rfl, ?_, ?_⟩
    · have hbl : (fillAndCompress x (addCount x.length s)).blen.toNat = (s.blen.toNat + x.length) % 128 := by
        rw [fillAndCompress_blen, BitVec.toNat_ofNat]
        exact (congrArg (· % 2 ^ 7) hrest).trans (by omega)
      rw [State.pending, hbl, fillAndCompress_buf]
      have hzero : (0#7).toNat = 0 := rfl
      have := Memory.block_writeBytes (compressBlocks ((x.drop (128 - s.blen.toNat)).length / 128)
          (compress s.h (s.buf.writeBytes s.blen (x.take (128 - s.blen.toNat))).block)
          (x.drop (128 - s.blen.toNat))).2 (m := s.buf.writeBytes s.blen (x.take (128 - s.blen.toNat))) 0#7
          (Memory.wf_writeBytes _ _ h) (by rw [hrest, hzero]; omega)
      refine (congrArg (List.take _) this).trans ?_
      rw [hzero, List.take_zero, List.nil_append, List.take_append_of_le_length (by rw [hrest]), List.take_of_length_le (by rw [hrest])]
    · rw [fillAndCompress_blen, BitVec.toNat_ofNat]
      exact (congrArg (· % 2 ^ 7) hrest).trans (by omega)

/-! ### What the context stands for -/

/-- A READY state stands for `x` exactly if its counter, its chaining state and its message bytes are those of `x`
(R33). -/
theorem represents_iff {x : List Byte} {s : State} :
    Represents x s ↔
      s.phase = .ready ∧ s.cnt = BitVec.ofNat 128 (8 * x.length) ∧
        s.h = (compressBlocks (x.length / 128) iv x).1 ∧ s.pending = (compressBlocks (x.length / 128) iv x).2 := by
  have hd : ∀ a i, (x.drop a).getD i 0#8 = x.getD (a + i) 0#8 := fun a i => by simp [List.getD_eq_getElem?_getD]
  have hl : (x.drop (128 * (x.length / 128))).length = x.length % 128 := by rw [List.length_drop]; omega
  rw [compressBlocks_snd, compressBlocks_fst_eq_foldl _ _ _ rfl]
  constructor
  · rintro ⟨h1, h2, h3, h4, h5⟩
    refine ⟨h1, h3, h4, List.ext_getElem (by rw [length_pending, hl, h2]) fun i a b => ?_⟩
    have hi : i < s.blen.toNat := by rwa [length_pending] at a
    have hn : (BitVec.ofNat 7 i).toNat = i := by
      rw [BitVec.toNat_ofNat]; exact Nat.mod_eq_of_lt (hi.trans s.blen.isLt)
    have ho : BitVec.ofNat 7 i < s.blen := by rw [BitVec.lt_def, hn]; exact hi
    have := h5 _ ho
    rwa [← getD_pending s _ ho, hn, ← hd, List.getD_eq_getElem _ _ a, List.getD_eq_getElem _ _ b] at this
  · rintro ⟨h1, h3, h4, h5⟩
    refine ⟨h1, by rw [← length_pending, h5, hl], h3, h4, fun o ho => ?_⟩
    rw [← getD_pending s o ho, h5, hd]

theorem messageAfter_idle {x : List Byte} {s : State} (h : s.inbox = []) : messageAfter x s = x := by
  simp only [messageAfter, h]

theorem messageAfter_init {x : List Byte} {s : State} {c : Command} {rest : List HostMove}
    (h : s.inbox = .command c :: rest) (hd : decode c = .ok .init) : messageAfter x s = [] := by
  simp only [messageAfter, h, hd]

theorem messageAfter_update {x : List Byte} {s : State} {c : Command} {rest : List HostMove} {n : BitVec 4} {data : Word}
    (h : s.inbox = .command c :: rest) (hd : decode c = .ok (.update n data)) : messageAfter x s = x ++ beat n data := by
  simp only [messageAfter, h, hd]

theorem messageAfter_illegal {x : List Byte} {s : State} {c : Command} {rest : List HostMove} {e : DecodeError}
    (h : s.inbox = .command c :: rest) (hd : decode c = .error e) : messageAfter x s = x := by
  simp only [messageAfter, h, hd]

/-! ### FINALIZE -/

/-- The buffer once the `0x80` byte and `k` zero bytes follow the message bytes. -/
theorem block_markedBuffer {s : State} (h : s.buf.wf = true) {k : Nat} (hk : s.blen.toNat + 1 + k ≤ 128) :
    (markedBuffer s k).block.take (s.blen.toNat + 1 + k) = s.pending ++ [0x80#8] ++ zeros k := by
  have hb : s.blen.toNat < 128 := s.blen.isLt
  have hmark : (s.buf.write s.blen padByte).block.take (s.blen.toNat + 1) = s.pending ++ [0x80#8] := by
    rw [Memory.block_write h, ← List.take_append_getElem (by simpa using hb), List.take_set_of_le (le_refl _),
      List.getElem_set_self]
    rfl
  have hlen : (s.pending ++ [0x80#8]).length = s.blen.toNat + 1 := by simp [length_pending]
  by_cases hfull : s.blen.toNat = 127
  · obtain rfl : k = 0 := by omega
    simpa [zeros, markedBuffer, Memory.writeBytes] using hmark
  · have hnext : (BitVec.ofNat 7 (s.blen.toNat + 1)).toNat = s.blen.toNat + 1 := by
      rw [BitVec.toNat_ofNat]
      omega
    rw [markedBuffer, Memory.block_writeBytes _ _ (Memory.wf_write _ _ h) (by rw [hnext, length_zeros]; omega), hnext,
      hmark, length_zeros, List.take_append_of_le_length (by rw [List.length_append, hlen, length_zeros]),
      List.take_of_length_le (by rw [List.length_append, hlen, length_zeros])]

theorem markedBuffer_wf {s : State} (h : s.buf.wf = true) (k : Nat) : (markedBuffer s k).wf = true :=
  Memory.wf_writeBytes _ _ (Memory.wf_write _ _ h)

theorem pad_wf {s : State} (h : s.buf.wf = true) : (pad s).buf.wf = true := by
  unfold pad
  split
  · rw [padTwoBlocks_buf]
    exact Memory.wf_writeBytes _ _ (markedBuffer_wf h _)
  · rw [padOneBlock_buf]
    exact markedBuffer_wf h _

/-- Padding where the length field still fits behind the `0x80` byte. -/
theorem pad_short {s : State} (h : s.buf.wf = true) (hb : s.blen.toNat ≤ 111) :
    (pad s).h = s.h ∧ (pad s).buf.block.take 112 = s.pending ++ [0x80#8] ++ zeros (111 - s.blen.toNat) := by
  have := block_markedBuffer h (k := 111 - s.blen.toNat) (by omega)
  rw [show s.blen.toNat + 1 + (111 - s.blen.toNat) = 112 by omega] at this
  rw [pad_short_eq hb]
  exact ⟨rfl, this⟩

/-- Padding where it does not: one block is compressed, and the last one starts with 112 zero bytes. -/
theorem pad_long {s : State} (h : s.buf.wf = true) (hb : 112 ≤ s.blen.toNat) :
    (pad s).h = compress s.h (s.pending ++ [0x80#8] ++ zeros (127 - s.blen.toNat)) ∧
      (pad s).buf.block.take 112 = zeros 112 := by
  have hlt : s.blen.toNat < 128 := s.blen.isLt
  have hm := block_markedBuffer h (k := 127 - s.blen.toNat) (by omega)
  rw [show s.blen.toNat + 1 + (127 - s.blen.toNat) = 128 by omega, List.take_of_length_le (by simp)] at hm
  have hzero : (0#7).toNat = 0 := rfl
  rw [pad_long_eq hb, padTwoBlocks_h, padTwoBlocks_buf, hm,
    Memory.block_writeBytes _ _ (markedBuffer_wf h _) (by rw [hzero, length_zeros]; omega), hzero, List.take_zero,
    List.nil_append, List.take_append_of_le_length (by simp), List.take_of_length_le (by simp)]
  exact ⟨rfl, rfl⟩

/-- The last block: what stands in its first 112 bytes, then the counter. -/
theorem block_writeLength {s : State} (h : s.buf.wf = true) :
    (writeLength s).buf.block = s.buf.block.take 112 ++ enc64 s.cntHi ++ enc64 s.cntLo := by
  have h112 : (112#7).toNat = 112 := rfl
  have h120 : (120#7).toNat = 120 := rfl
  have hinner : (s.buf.writeBytes 112#7 (enc64 s.cntHi)).block.take 120 = s.buf.block.take 112 ++ enc64 s.cntHi := by
    rw [Memory.block_writeBytes _ _ h (by rw [h112, length_enc64]; omega), h112,
      List.take_append_of_le_length (by simp), List.take_of_length_le (by simp)]
  rw [writeLength_buf, Memory.block_writeBytes _ _ (Memory.wf_writeBytes _ _ h) (by rw [h120, length_enc64]), h120,
    hinner, List.drop_of_length_le (by simp), List.append_nil]

/-- The chaining state after FINALIZE's compressions: the message bytes in the buffer with their padding and length
field, in one block or two. -/
theorem finishHash_h {s : State} (h : s.buf.wf = true) :
    (finishHash s).h =
      if s.blen.toNat ≤ 111 then
        compress s.h (s.pending ++ [0x80#8] ++ zeros (111 - s.blen.toNat) ++ enc64 s.cntHi ++ enc64 s.cntLo)
      else
        compress (compress s.h (s.pending ++ [0x80#8] ++ zeros (127 - s.blen.toNat)))
          (zeros 112 ++ enc64 s.cntHi ++ enc64 s.cntLo) := by
  rw [finishHash, compressBuffer_h, writeLength_h, block_writeLength (pad_wf h), pad_cntHi, pad_cntLo]
  split
  · next hb => rw [(pad_short h hb).1, (pad_short h hb).2]
  · next hb => rw [(pad_long h (by omega)).1, (pad_long h (by omega)).2]

end Sys2Proof.Machine
end

