-- ==== Sys2Proof/Laws/Decode.lean ====
section
/-! SUPPORT. The command word's fields, and what the decoder can answer. -/

namespace Sys2Proof

/-- A command word is its four fields, by their weights (R71). -/
theorem word_toNat (w : HalfWord) :
    w.toNat = (rsv1Field w).toNat * 4096 + (nbField w).toNat * 256 + (rsv0Field w).toNat * 16 + (opField w).toNat := by
  have := w.isLt
  simp only [rsv1Field, nbField, rsv0Field, opField, BitVec.extractLsb'_toNat, Nat.shiftRight_eq_div_pow]
  omega

/-- The fields of an UPDATE's word (R80). -/
theorem updateWord_fields :
    ∀ n : BitVec 4, opField (updateWord n) = 2#4 ∧ rsv0Field (updateWord n) = 0#4 ∧ nbField (updateWord n) = n ∧
      rsv1Field (updateWord n) = 0#20 := by decide

/-- Everything the decoder can answer: an instruction of its OP with the reserved bits 0 and an NB its form allows,
or the first of the four reasons to reject that applies (R72, R73, R76). -/
theorem decode_cases (c : Command) :
    (decode c = .error .reservedBits ∧ ¬(rsv0Field c.cmd = 0#4 ∧ rsv1Field c.cmd = 0#20)) ∨
      (rsv0Field c.cmd = 0#4 ∧ rsv1Field c.cmd = 0#20 ∧
        ((opField c.cmd = 0#4 ∧ nbField c.cmd = 0#4 ∧ decode c = .ok .status) ∨
          (opField c.cmd = 1#4 ∧ nbField c.cmd = 0#4 ∧ decode c = .ok .init) ∨
          (opField c.cmd = 2#4 ∧ nbField c.cmd ≤ 8#4 ∧ decode c = .ok (.update (nbField c.cmd) c.data)) ∨
          (opField c.cmd = 3#4 ∧ nbField c.cmd = 0#4 ∧ decode c = .ok .finalize) ∨
          (opField c.cmd = 2#4 ∧ ¬nbField c.cmd ≤ 8#4 ∧ decode c = .error .byteCountTooLarge) ∨
          ((opField c.cmd = 0#4 ∨ opField c.cmd = 1#4 ∨ opField c.cmd = 3#4) ∧ nbField c.cmd ≠ 0#4 ∧
            decode c = .error .byteCountNotZero) ∨
          (3#4 < opField c.cmd ∧ decode c = .error .reservedOp))) := by
  have above : ∀ o : BitVec 4, o ≠ 0#4 → o ≠ 1#4 → o ≠ 2#4 → o ≠ 3#4 → 3#4 < o := by decide
  by_cases hr : rsv0Field c.cmd = 0#4 ∧ rsv1Field c.cmd = 0#20
  · refine .inr ⟨hr.1, hr.2, ?_⟩
    simp only [decode, decodeNoCount, hr.1, hr.2, ne_eq, not_true_eq_false, or_self, if_false]
    split_ifs with h0 hn h1 hn h2 hn h3 hn
    · exact .inl ⟨h0, hn, rfl⟩
    · exact .inr (.inr (.inr (.inr (.inr (.inl ⟨.inl h0, hn, rfl⟩)))))
    · exact .inr (.inl ⟨h1, hn, rfl⟩)
    · exact .inr (.inr (.inr (.inr (.inr (.inl ⟨.inr (.inl h1), hn, rfl⟩)))))
    · exact .inr (.inr (.inl ⟨h2, hn, rfl⟩))
    · exact .inr (.inr (.inr (.inr (.inl ⟨h2, hn, rfl⟩))))
    · exact .inr (.inr (.inr (.inl ⟨h3, hn, rfl⟩)))
    · exact .inr (.inr (.inr (.inr (.inr (.inl ⟨.inr (.inr h3), hn, rfl⟩)))))
    · exact .inr (.inr (.inr (.inr (.inr (.inr ⟨above _ h0 h1 h2 h3, rfl⟩)))))
  · refine .inl ⟨if_pos ?_, hr⟩
    rcases not_and_or.1 hr with h | h
    · exact .inl h
    · exact .inr h

end Sys2Proof
end

