-- ==== Sys2Proof/Laws/PerInstr.lean ====
section
/-! SUPPORT. What holds of the encoding of every well-formed instruction, one lemma per constructor. -/

namespace Sys2Proof.Laws.EncodedLegal

/-- The encoding of a well-formed instruction is a legal command word (R75), and both its reserved fields are 0 (R71). -/
def Statement (i : Instr) : Prop :=
  i.wellFormed = true → legal (encode i).cmd = true ∧ rsv0Field (encode i).cmd = 0#4 ∧ rsv1Field (encode i).cmd = 0#20

theorem status : Statement .status := fun _ => by decide

theorem init : Statement .init := fun _ => by decide

theorem update (n : BitVec 4) (data : Word) : Statement (.update n data) := by
  have key : ∀ n : BitVec 4, n ≤ 8#4 →
      legal (updateWord n) = true ∧ rsv0Field (updateWord n) = 0#4 ∧ rsv1Field (updateWord n) = 0#20 := by decide
  exact fun h => key n (by simpa [Instr.wellFormed] using h)

theorem finalize : Statement .finalize := fun _ => by decide

end Sys2Proof.Laws.EncodedLegal
end

