-- ==== Sys2Proof/Tests/Slice0.lean ====
section
/-! SUPPORT. Tests of the model against the vectors of spec/95_test_vectors.md (its section is named at each group), and
for every obligation with hypotheses a witness that meets them. -/

namespace Sys2Proof.Tests

open Sys2Proof.Machine

/-! ### Helpers -/

/-- The next state of an outcome, if it is one. -/
def nextOf : Host.Outcome State Fault Refusal → Option State
  | .next t => some t
  | .fault _ => none
  | .refused _ => none

/-- The machine after one step that takes the command `(CMD, DATA)`. -/
def afterCommand (s : State) (cmd : HalfWord) (data : Word) : Option State :=
  nextOf (step { s with inbox := [.command { cmd := cmd, data := data }] })

/-- `pattern(n)` of spec/95_test_vectors.md. -/
def pattern (n : Nat) : List Byte := (List.range n).map (BitVec.ofNat 8)

/-- A READY state with `H = IV`, the given counter, and the given bytes in the buffer. -/
def readyWith (hi lo : Word) (bytes : List Byte) : State :=
  { State.reset with
    phase := .ready, h := iv, cntHi := hi, cntLo := lo, buf := Memory.zero.writeBytes 0#7 bytes,
    blen := BitVec.ofNat 7 bytes.length }

/-- A state in FAULT with the given cause. -/
def faultWith (c : FaultCause) : State := { State.reset with phase := .fault, cause := c.code }

/-- The state after FINALIZE. -/
def finalized : State := { State.reset with phase := .finalized }

/-- The last STATUS word, the phase and the cause. -/
def report (t : Option State) : Option (HalfWord × Phase × BitVec 4) :=
  t.bind fun t => t.outbox.getLast?.map fun r => (r.status, t.phase, t.cause)

/-- The last DIGEST. -/
def digestOf (t : Option State) : Option (List Byte) := t.bind fun t => t.outbox.getLast?.map fun r => r.digest

/-! ### WellFormed -/

theorem test_wellFormed_refuses_count_nine : (Instr.update 9#4 0#64).wellFormed = false := by decide

theorem test_wellFormed_admits_count_eight : (Instr.update 8#4 0#64).wellFormed = true := by decide

/-! ### Decode: words written out bit by bit from R71: RSV1[31:12], NB[11:8], RSV0[7:4], OP[3:0] -/

theorem test_decode_status : decode { cmd := 0b00000000000000000000_0000_0000_0000#32, data := 7#64 } = .ok .status := by
  decide

theorem test_decode_init : decode { cmd := 0b00000000000000000000_0000_0000_0001#32, data := 7#64 } = .ok .init := by
  decide

theorem test_decode_update :
    decode { cmd := 0b00000000000000000000_0011_0000_0010#32, data := 0x6162630000000000#64 } =
      .ok (.update 3#4 0x6162630000000000#64) := by decide

theorem test_decode_finalize :
    decode { cmd := 0b00000000000000000000_0000_0000_0011#32, data := 7#64 } = .ok .finalize := by decide

theorem test_decode_rejects :
    decode { cmd := 0b00000000000000000000_1001_0000_0010#32, data := 0#64 } = .error .byteCountTooLarge ∧
      decode { cmd := 0b00000000000000000000_0001_0000_0001#32, data := 0#64 } = .error .byteCountNotZero ∧
      decode { cmd := 0b00000000000000000000_0000_0000_0100#32, data := 0#64 } = .error .reservedOp ∧
      decode { cmd := 0b00000000000000000000_0000_0001_0010#32, data := 0#64 } = .error .reservedBits ∧
      decode { cmd := 0b00000000000000000001_0000_0000_0000#32, data := 0#64 } = .error .reservedBits := by decide

theorem test_encode_update : encode (.update 8#4 5#64) = { cmd := 0x00000802#32, data := 5#64 } := by decide

/-- A table word of 32 bits has DATA 0; with 96 bits DATA counts on from bit 32 (log entry 7). -/
theorem test_decodeTableWord :
    decodeTableWord 32 0x00000302 = some (.update 3#4 0#64) ∧
      decodeTableWord 96 0x616263000000000000000302 = some (.update 3#4 0x6162630000000000#64) ∧
      decodeTableWord 32 0x00000007 = none := by decide

theorem test_withFetchWord_runs_next :
    report (nextOf (step (State.reset.withFetchWord 32 1))) = some (0x00000101#32, .ready, 0#4) := by decide

/-! ### Codec (95, section 2) -/

theorem test_enc64 :
    enc64 0x0123456789ABCDEF#64 = [0x01, 0x23, 0x45, 0x67, 0x89, 0xAB, 0xCD, 0xEF] ∧
      enc64 0x0000000000000380#64 = [0, 0, 0, 0, 0, 0, 0x03, 0x80] := by decide

theorem test_dec64 :
    dec64 [0x61, 0x62, 0x63, 0x80, 0, 0, 0, 0] = 0x6162638000000000#64 ∧
      dec64 [0, 0, 0, 0, 0, 0, 0, 0x18] = 0x18#64 := by decide

theorem test_codec32 :
    enc32 0xDEADBEEF#32 = [0xDE, 0xAD, 0xBE, 0xEF] ∧ dec32 [0x00, 0x00, 0x01, 0x00] = 0x00000100#32 := by decide

/-! ### Compressor (95, section 3) -/

theorem test_bigSigma :
    bigSigma0 0x0123456789ABCDEF#64 = 0xB7C57A100C7EC1AB#64 ∧ bigSigma0 1#64 = 0x0000001042000000#64 ∧
      bigSigma1 0x0123456789ABCDEF#64 = 0x7703112333475567#64 ∧ bigSigma1 1#64 = 0x0004400000800000#64 := by decide

theorem test_smallSigma :
    smallSigma0 0x0123456789ABCDEF#64 = 0x6F92C77C6C4F1AA1#64 ∧ smallSigma0 1#64 = 0x8100000000000000#64 ∧
      smallSigma1 0x0123456789ABCDEF#64 = 0x70A3460DBBD4317A#64 ∧
      smallSigma1 0xFFFFFFFFFFFFFFFF#64 = 0x03FFFFFFFFFFFFFF#64 := by decide

theorem test_rotr : rotr 1#64 1 = 0x8000000000000000#64 ∧ rotr 1#64 63 = 2#64 := by decide

/-- The padded "abc" block. -/
def abcBlock : List Byte := [0x61, 0x62, 0x63, 0x80] ++ zeros 123 ++ [0x18]

theorem test_schedule :
    (schedule abcBlock).getD 15 0#64 = 0x18#64 ∧ (schedule abcBlock).getD 17 0#64 = 0x00030000000000C0#64 ∧
      (schedule abcBlock).getD 18 0#64 = 0x0A9699A24C700003#64 ∧
      (schedule abcBlock).getD 79 0#64 = 0x92AEEED1A7BCF7D2#64 := by decide +kernel

/-- The registers after round 1: the new `b` is the old `a`, the new `h` the old `g` (C6). -/
theorem test_two_rounds :
    runRounds (roundConstants.take 2) (schedule abcBlock) (loadWork iv) =
      { a := 0x1320F8C9FB872CC0#64, b := 0xF6AFCEB8BCFCDDF5#64, c := 0x6A09E667F3BCC908#64, d := 0xBB67AE8584CAA73B#64,
        e := 0xC3D4EBFD48650FFA#64, f := 0x58CB02347AB51F91#64, g := 0x510E527FADE682D1#64,
        h := 0x9B05688C2B3E6C1F#64 } := by decide +kernel

theorem test_compress_abc :
    (compress iv abcBlock).toList =
      [0xDDAF35A193617ABA, 0xCC417349AE204131, 0x12E6FA4E89A97EA2, 0x0A9EEEE64B55D39A, 0x2192992A274FC1A8,
        0x36BA3C23A3FEEBBD, 0x454D4423643CE80E, 0x2A9AC94FA54CA49F] := by decide +kernel

theorem test_compress_all_ones :
    (compress
        { h0 := 0xFFFFFFFFFFFFFFFF#64, h1 := 0xFFFFFFFFFFFFFFFF#64, h2 := 0xFFFFFFFFFFFFFFFF#64,
          h3 := 0xFFFFFFFFFFFFFFFF#64, h4 := 0xFFFFFFFFFFFFFFFF#64, h5 := 0xFFFFFFFFFFFFFFFF#64,
          h6 := 0xFFFFFFFFFFFFFFFF#64, h7 := 0xFFFFFFFFFFFFFFFF#64 }
        (List.replicate 128 0xFF#8)).toList =
      [0x9B0F121696E951EE, 0x41D0B467B741E768, 0x564F41EBB3B72884, 0xF805B40FCACB5BC1, 0x3C379CFFCF02A900,
        0x9B17A37F809AC554, 0x79C9FD2E1C83B6AB, 0xE948D9E252C02C7A] := by decide +kernel

/-- A compressor with a window of 16 schedule words gives the same (R138). -/
theorem test_compressRolling_pattern :
    (compressRolling iv (pattern 128)).toList =
      [0x8E03953CD57CD687, 0x9321270AFA70C582, 0x7BB5B69BE59A8F01, 0x30147E94F2AEDF7B, 0xDC01C56C92343CA8,
        0xBD837BB7F0208F5A, 0x23E155694516B6F1, 0x47099D491A30B151] := by decide +kernel

/-! ### Known vectors (95, V1.1) -/

theorem test_sha512_empty :
    sha512 [] =
      [0xCF83E1357EEFB8BD, 0xF1542850D66D8007, 0xD620E4050B5715DC, 0x83F4A921D36CE9CE, 0x47D0D13C5D85F2B0,
        0xFF8318D2877EEC2F, 0x63B931BD47417A81, 0xA538327AF927DA3E].flatMap enc64 := by decide +kernel

theorem test_sha512_abc :
    sha512 [0x61, 0x62, 0x63] =
      [0xDDAF35A193617ABA, 0xCC417349AE204131, 0x12E6FA4E89A97EA2, 0x0A9EEEE64B55D39A, 0x2192992A274FC1A8,
        0x36BA3C23A3FEEBBD, 0x454D4423643CE80E, 0x2A9AC94FA54CA49F].flatMap enc64 := by decide +kernel

/-! ### Counter (95, section 4) -/

theorem test_addCount_carries :
    (addCount 8 (readyWith 0#64 0xFFFFFFFFFFFFFFF0#64 [])).cnt = 0x10000000000000030#128 ∧
      (addCount 1 (readyWith 0xFFFFFFFFFFFFFFFF#64 0xFFFFFFFFFFFFFFF8#64 [])).cnt = 0#128 ∧
      (addCount 8 (readyWith 5#64 0x100#64 [])).cntLo = 0x140#64 := by decide

/-! ### Commands (95, section 5 and V1.5) -/

theorem test_status_after_reset : report (afterCommand State.reset 0#32 9#64) = some (0x00000100#32, .uninit, 0#4) := by
  decide

theorem test_status_in_fault :
    report (afterCommand (faultWith .useAfterFinalize) 0#32 0#64) = some (0x00000133#32, .fault, 3#4) := by decide

theorem test_init_from_finalized :
    report (afterCommand finalized 1#32 0#64) = some (0x00000101#32, .ready, 0#4) ∧
      (afterCommand finalized 1#32 0#64).map (fun t => (t.h, t.cnt, t.buf, t.blen)) =
        some (iv, 0#128, [], 0#7) := by decide

theorem test_init_refused_in_fault :
    report (afterCommand (faultWith .useAfterFinalize) 1#32 0#64) = some (0x00000033#32, .fault, 3#4) := by decide

/-- `UPDATE 3, 0x616263FFFFFFFFFF`: the lanes past the third are ignored. -/
theorem test_update_abc :
    report (afterCommand (readyWith 0#64 0#64 []) 0x00000302#32 0x616263FFFFFFFFFF#64) =
        some (0x00000101#32, .ready, 0#4) ∧
      (afterCommand (readyWith 0#64 0#64 []) 0x00000302#32 0x616263FFFFFFFFFF#64).map
          (fun t => (t.buf, t.blen, t.cnt, t.h)) =
        some ([(0, 0x61#8), (1, 0x62#8), (2, 0x63#8)], 3#7, 0x18#128, iv) := by decide

/-- The beat that crosses the block boundary, after `pattern(125)`; the chaining words are those of
`Compress(IV, pattern(128))` in section 3. -/
theorem test_update_crosses_block :
    (afterCommand (readyWith 0#64 0x3E8#64 (pattern 125)) 0x00000802#32 0x7D7E7F8081828384#64).map
        (fun t => (t.blen, t.cntLo, (List.range 5).map t.buf.byteAt, t.h.h0, t.h.h7)) =
      some (5#7, 0x428#64, [0x80, 0x81, 0x82, 0x83, 0x84], 0x8E03953CD57CD687#64, 0x47099D491A30B151#64) := by
  decide +kernel

/-- FINALIZE with the injected counter 2^64: the length field keeps its high word (V1.5). -/
theorem test_finalize_long_count :
    report (afterCommand (readyWith 1#64 0#64 []) 3#32 0#64) = some (0x00000102#32, .finalized, 0#4) ∧
      digestOf (afterCommand (readyWith 1#64 0#64 []) 3#32 0#64) =
        some ([0x4E15588B073F68F0, 0x7592E9A51190A7E0, 0x0E2EFAAA365FB318, 0xF27E82E5C6DF94A8, 0x62D54B825CEFCC3B,
          0xD28977FCEFC7FD8C, 0xAC281F334977797E, 0xA395DBFF21311A72].flatMap enc64) := by decide +kernel

/-- FINALIZE of `pattern(112)`: two blocks (P3). -/
theorem test_finalize_two_blocks :
    digestOf (afterCommand (readyWith 0#64 0x380#64 (pattern 112)) 3#32 0#64) =
      some ([0xC5FBD731D19D2AE1, 0x180F001BE72C2C1A, 0xABA1D7B094B37488, 0x80E24593B8E117A7, 0x50E11C1BD867CC2F,
        0x96DACE8C8B74ABD2, 0xD5C4F236BE444E77, 0xD30D1916174070B9].flatMap enc64) := by decide +kernel

/-! ### Faults (95, section 6) -/

theorem test_faults_in_uninit :
    report (afterCommand State.reset 0x00000002#32 0#64) = some (0x00000023#32, .fault, 2#4) ∧
      report (afterCommand State.reset 0x00000003#32 0#64) = some (0x00000023#32, .fault, 2#4) ∧
      report (afterCommand State.reset 0x00000902#32 0#64) = some (0x00000013#32, .fault, 1#4) ∧
      digestOf (afterCommand State.reset 0x00000003#32 0#64) = some (zeros 64) := by decide

theorem test_fault_zeroes_context :
    (afterCommand (readyWith 5#64 6#64 [0x61#8]) 0x00000101#32 0#64).map (fun t => (t.h, t.cnt, t.buf, t.blen)) =
        some (Chain.zero, 0#128, [], 0#7) ∧
      report (afterCommand (readyWith 5#64 6#64 [0x61#8]) 0x80000000#32 0#64) =
        some (0x00000013#32, .fault, 1#4) := by decide

theorem test_faults_in_finalized :
    report (afterCommand finalized 0x00000002#32 0#64) = some (0x00000033#32, .fault, 3#4) ∧
      report (afterCommand finalized 0x00000003#32 0#64) = some (0x00000033#32, .fault, 3#4) ∧
      report (afterCommand (faultWith .useAfterFinalize) 0x00000007#32 0#64) =
        some (0x00000033#32, .fault, 3#4) := by decide

/-- Reset leaves FAULT, returns nothing for the command it cuts off, and keeps what the host does next (R231). -/
theorem test_reset_leaves_fault :
    nextOf (step { faultWith .illegalCmd with inbox := [.reset (some { cmd := 3#32, data := 0#64 })] }) =
      some State.reset := by decide

/-! ### Assembler (R80 to R82) -/

theorem test_assembler_lines :
    assembleLine "  UPDATE 3, 0x6162_6300_0000_0000 ; three bytes" =
        some [{ cmd := 0x00000302#32, data := 0x6162630000000000#64 }] ∧
      assembleLine ".cmd 0x7, 0" = some [{ cmd := 7#32, data := 0#64 }] ∧
      assembleLine "UPDATE 9, 0" = none ∧ assembleLine "" = some [] ∧
      assembleLine ".cmd 0x7" = none := by decide

theorem test_pseudo_commands :
    (assembleLine "HASH \"abc\"").map (List.map Command.cmd) = some [0x00000001#32, 0x00000302#32, 0x00000003#32] ∧
      updateBytesExpansion (pattern 9) = [.update 8#4 0x0001020304050607#64, .update 1#4 0x0800000000000000#64] ∧
      assembleLine "UPDATE_BYTES 61 62" = some [{ cmd := 0x00000202#32, data := 0x6162000000000000#64 }] := by decide

/-! ### Witnesses: the hypotheses of each obligation are met, at the edges of their ranges -/

/-- A host command. -/
def cmdMove (cmd : HalfWord) : HostMove := .command { cmd := cmd, data := 0#64 }

/-- A state with a moves list for the host to make. -/
def sending (s : State) (moves : List HostMove) : State := { s with inbox := moves }

theorem witness_DecodeOfEncode :
    (Instr.update 8#4 1#64).wellFormed = true ∧ (Instr.update 0#4 1#64).wellFormed = true ∧
      Instr.finalize.wellFormed = true := by decide

theorem witness_DecodeSucceedsExactlyOnLegalWords :
    (∃ i, decode { cmd := 0x802#32, data := 1#64 } = .ok i) ∧ legal 0x802#32 = true ∧ legal 0x902#32 = false :=
  ⟨⟨_, rfl⟩, by decide, by decide⟩

theorem witness_LegalWordsAreThoseListed :
    legal 3#32 = true ∧ legal 4#32 = false ∧ (8#4 ≤ 8#4 ∧ 0x802#32 = BitVec.ofNat 32 (256 * (8#4).toNat + 2)) := by decide

theorem witness_OpcodeMapDecides :
    decode { cmd := 0x002#32, data := 0#64 } = .ok (.update 0#4 0#64) ∧
      decode { cmd := 0x902#32, data := 0#64 } = .error .byteCountTooLarge ∧
      (∃ r ∈ opcodeMap, r.selects 0x802#32 = true) := by decide

theorem witness_BeatIsTheUsedLanes :
    (8#4 ≤ 8#4 ∧ 7 < (8#4).toNat) ∧
      (3#4 ≤ 8#4 ∧ ∀ k, k < (3#4).toNat →
        (0x6162630000000000#64).extractLsb' (56 - 8 * k) 8 = (0x616263FFFFFFFFFF#64).extractLsb' (56 - 8 * k) 8) ∧
      opField 0x001#32 ≠ 2#4 := by decide

theorem witness_StepRunsTheDecodedInstruction :
    (sending State.reset [cmdMove 0x102#32]).inbox = .command { cmd := 0x102#32, data := 0#64 } :: [] ∧
      decode { cmd := 0x102#32, data := 0#64 } = .ok (.update 1#4 0#64) := by decide

theorem witness_IllegalWordIsRejected :
    (sending State.reset [cmdMove 7#32]).inbox = .command { cmd := 7#32, data := 0#64 } :: [] ∧
      legal 7#32 = false ∧ (sending State.reset [cmdMove 7#32]).phase ≠ .fault ∧
      (sending (faultWith .illegalCmd) [cmdMove 7#32]).phase = .fault := by decide

theorem witness_HardwareResetResets :
    (sending (faultWith .illegalCmd) [.reset none, cmdMove 1#32]).inbox = .reset none :: [cmdMove 1#32] := by decide

theorem witness_OneResponsePerCommand :
    (∃ t, step (sending State.reset [cmdMove 1#32]) = .next t) ∧
      (∃ t, step (sending State.reset [.reset none]) = .next t) ∧
      (∃ t, step State.reset = .next t) ∧ State.reset.inbox = [] :=
  ⟨⟨_, rfl⟩, ⟨_, rfl⟩, ⟨_, rfl⟩, rfl⟩

theorem witness_PhaseTransitionsFollowTheTable :
    (sending finalized [cmdMove 3#32]).inbox = .command { cmd := 3#32, data := 0#64 } :: [] ∧
      decode { cmd := 3#32, data := 0#64 } = .ok .finalize ∧
      (sending finalized [cmdMove 0x902#32]).inbox = .command { cmd := 0x902#32, data := 0#64 } :: [] ∧
      decode { cmd := 0x902#32, data := 0#64 } = .error .byteCountTooLarge := by decide

theorem inv_readyWith : (readyWith 0#64 0x18#64 [0x61#8, 0x62#8, 0x63#8]).Inv := by
  refine ⟨by decide, by decide, by decide, fun h => absurd ?_ h⟩
  decide

theorem witness_StepKeepsInvariant :
    (readyWith 0#64 0x18#64 [0x61#8, 0x62#8, 0x63#8]).Inv ∧
      (∃ t, step (readyWith 0#64 0x18#64 [0x61#8, 0x62#8, 0x63#8]) = .next t) ∧ (faultWith .useBeforeInit).Inv :=
  ⟨inv_readyWith, ⟨_, rfl⟩, ⟨by decide, by decide, by decide, fun _ => ⟨rfl, rfl, rfl, rfl, rfl⟩⟩⟩

theorem witness_StepKeepsResponsesLegal :
    ∃ s : State, s.Inv ∧ s.outbox ≠ [] ∧ (∀ r ∈ s.outbox, r.Legal) ∧ ∃ t, step s = .next t := by
  refine ⟨{ faultWith .useBeforeInit with outbox := [{ status := 0x23#32, digest := zeros 64 }] },
    ⟨by decide, by decide, by decide, fun _ => ⟨rfl, rfl, rfl, rfl, rfl⟩⟩, by decide, ?_, _, rfl⟩
  intro r hr
  rw [List.mem_singleton.1 hr]
  exact ⟨by decide, by decide, by decide, by decide, by decide⟩

theorem witness_StatusReportsPhaseAndCause :
    ∃ t u, exec .status (faultWith .illegalCmd) = .next t ∧ exec .status t = .next u := ⟨_, _, rfl, rfl⟩

theorem witness_StatusLeaksNoContext :
    readyWith 0#64 8#64 [0x61#8] ≠ readyWith 0#64 8#64 [0x62#8] ∧
      (readyWith 0#64 8#64 [0x61#8]).phase = (readyWith 0#64 8#64 [0x62#8]).phase ∧
      (readyWith 0#64 8#64 [0x61#8]).cause = (readyWith 0#64 8#64 [0x62#8]).cause := by decide

theorem witness_StatusWordFields : finalized.phase = .finalized ∧ finalized.phase.code = 2#2 := by decide

theorem witness_InitCreatesFreshContext :
    State.reset.phase ≠ .fault ∧ finalized.phase ≠ .fault ∧ (faultWith .illegalCmd).phase = .fault ∧
      ((readyWith 0#64 0x18#64 [0x61#8, 0x62#8, 0x63#8]).Inv ∧
        (readyWith 0#64 0x18#64 [0x61#8, 0x62#8, 0x63#8]).phase ≠ .fault) ∧
      ∃ t u, exec .init State.reset = .next t ∧ exec .init t = .next u :=
  ⟨by decide, by decide, by decide, ⟨inv_readyWith, by decide⟩, _, _, rfl, rfl⟩

/-- The last beat that does not complete a block, and the counter's last value that does not wrap under it. -/
theorem witness_UpdateAppendsToBuffer :
    (readyWith 0#64 0x3B8#64 (pattern 119)).phase = .ready ∧ (readyWith 0#64 0x3B8#64 (pattern 119)).buf.wf = true ∧
      8#4 ≤ 8#4 ∧ (readyWith 0#64 0x3B8#64 (pattern 119)).blen.toNat + (8#4).toNat < 128 ∧
      (readyWith 0xFFFFFFFFFFFFFFFF#64 0xFFFFFFFFFFFFFFF0#64 []).cnt.toNat + 8 * 1 < 2 ^ 128 := by decide +kernel

/-- The first beat that completes a block, and the one that leaves most of itself over. -/
theorem witness_UpdateCompressesFullBlock :
    (readyWith 0#64 0x3C0#64 (pattern 120)).phase = .ready ∧ (readyWith 0#64 0x3C0#64 (pattern 120)).buf.wf = true ∧
      8#4 ≤ 8#4 ∧ 128 ≤ (readyWith 0#64 0x3C0#64 (pattern 120)).blen.toNat + (8#4).toNat ∧
      (readyWith 0#64 0x3F8#64 (pattern 127)).buf.wf = true ∧
      128 ≤ (readyWith 0#64 0x3F8#64 (pattern 127)).blen.toNat + (8#4).toNat := by decide +kernel

theorem witness_EmptyUpdateChangesNothing : (readyWith 0#64 0x18#64 [1, 2, 3]).phase = .ready := by decide

theorem witness_UpdateStoresOnlyTheBeat :
    (readyWith 0#64 0x3E8#64 (pattern 125)).phase = .ready ∧ (readyWith 0#64 0x3E8#64 (pattern 125)).buf.wf = true ∧
      8#4 ≤ 8#4 ∧ (∃ t, exec (.update 8#4 0#64) (readyWith 0#64 0x3E8#64 (pattern 125)) = .next t) ∧
      ¬(125 ≤ (5#7).toNat ∧ (5#7).toNat < 125 + (8#4).toNat) ∧ ¬((5#7).toNat + 128 < 125 + (8#4).toNat) :=
  ⟨by decide +kernel, by decide +kernel, by decide +kernel, ⟨_, rfl⟩, by decide +kernel, by decide +kernel⟩

theorem witness_AddCountIsModularAddition :
    (readyWith 5#64 0xFFFFFFFFFFFFFFF8#64 []).cntLo = 0xFFFFFFFFFFFFFFF8#64 ∧
      (readyWith 0xFFFFFFFFFFFFFFFF#64 0xFFFFFFFFFFFFFFF8#64 []).cntHi = 0xFFFFFFFFFFFFFFFF#64 ∧
      State.reset.cntHi = 0#64 ∧ State.reset.cntLo = 0#64 := by decide

theorem witness_UpdateCompressionCount :
    (readyWith 0#64 0x3B8#64 (pattern 119)).phase = .ready ∧ (readyWith 0#64 0x3B8#64 (pattern 119)).buf.wf = true ∧
      (readyWith 0#64 0x3C0#64 (pattern 120)).phase = .ready ∧ (readyWith 0#64 0x3C0#64 (pattern 120)).buf.wf = true ∧
      8#4 ≤ 8#4 := by decide +kernel

theorem witness_ConcatenationLaw :
    (readyWith 0#64 0x18#64 [1, 2, 3]).phase = .ready ∧ (readyWith 0#64 0x18#64 [1, 2, 3]).buf.wf = true := by decide

theorem witness_ByteSerialEquivalence : (readyWith 0#64 0x3F8#64 (pattern 127)).buf.wf = true := by decide +kernel

/-- The longest tail that is padded in one block, and the shortest that takes two. -/
theorem witness_FinalizePadsCompressesAndScrubs :
    (readyWith 0#64 0x378#64 (pattern 111)).phase = .ready ∧ (readyWith 0#64 0x378#64 (pattern 111)).buf.wf = true ∧
      (readyWith 0#64 0x378#64 (pattern 111)).blen.toNat ≤ 111 ∧
      (readyWith 0#64 0x380#64 (pattern 112)).phase = .ready ∧ (readyWith 0#64 0x380#64 (pattern 112)).buf.wf = true ∧
      ¬(readyWith 0#64 0x380#64 (pattern 112)).blen.toNat ≤ 111 := by decide +kernel

theorem witness_FinalizeErasesTheMessage :
    readyWith 0#64 8#64 [0x61#8] ≠ readyWith 0#64 8#64 [0x62#8] ∧
      (readyWith 0#64 8#64 [0x61#8]).phase = .ready ∧ (readyWith 0#64 8#64 [0x62#8]).phase = .ready ∧
      (readyWith 0#64 8#64 [0x61#8]).cause = (readyWith 0#64 8#64 [0x62#8]).cause ∧
      (readyWith 0#64 8#64 [0x61#8]).inbox = (readyWith 0#64 8#64 [0x62#8]).inbox := by decide

theorem witness_DigestLeavesOnlyByFinalize :
    ∃ t r, step (sending (readyWith 1#64 0#64 []) [cmdMove 3#32]) = .next t ∧
      t.outbox = (sending (readyWith 1#64 0#64 []) [cmdMove 3#32]).outbox ++ [r] ∧ r.digest ≠ zeros 64 := by
  refine ⟨_, _, rfl, rfl, ?_⟩
  decide +kernel

theorem witness_UseBeforeInitFaults :
    (Instr.finalize = .finalize ∨ ∃ n data, n ≤ 8#4 ∧ Instr.finalize = .update n data) ∧
      (Instr.update 0#4 0#64 = .finalize ∨ ∃ n data, n ≤ 8#4 ∧ Instr.update 0#4 0#64 = .update n data) ∧
      State.reset.phase = .uninit :=
  ⟨.inl rfl, .inr ⟨_, _, by decide, rfl⟩, rfl⟩

theorem witness_UseAfterFinalizeFaults :
    (Instr.finalize = .finalize ∨ ∃ n data, n ≤ 8#4 ∧ Instr.finalize = .update n data) ∧
      (Instr.update 8#4 0#64 = .finalize ∨ ∃ n data, n ≤ 8#4 ∧ Instr.update 8#4 0#64 = .update n data) ∧
      finalized.phase = .finalized :=
  ⟨.inl rfl, .inr ⟨_, _, by decide, rfl⟩, rfl⟩

theorem witness_IllegalCountComesFirst : 8#4 < 9#4 ∧ State.reset.phase ≠ .fault ∧ finalized.phase ≠ .fault := by decide

theorem witness_FaultEntryIsPrecise :
    ∃ t, step (sending State.reset [cmdMove 3#32]) = .next t ∧ (sending State.reset [cmdMove 3#32]).phase ≠ .fault ∧
      t.phase = .fault := ⟨_, rfl, by decide, rfl⟩

theorem witness_FaultPhaseRefusesCommands :
    (sending (faultWith .illegalCmd) [cmdMove 0#32]).phase = .fault ∧
      (sending (faultWith .illegalCmd) [cmdMove 0#32]).inbox = .command { cmd := 0#32, data := 0#64 } :: [] ∧
      (sending (faultWith .illegalCmd) [cmdMove 1#32]).phase = .fault ∧
      (sending (faultWith .illegalCmd) [cmdMove 1#32]).inbox = .command { cmd := 1#32, data := 0#64 } :: [] := by decide

theorem witness_OnlyResetLeavesFault :
    (∃ t, step (sending (faultWith .illegalCmd) [cmdMove 1#32]) = .next t) ∧
      (∃ t, step (sending (faultWith .illegalCmd) [.reset none]) = .next t) ∧
      (sending (faultWith .illegalCmd) [.reset none]).phase = .fault := ⟨⟨_, rfl⟩, ⟨_, rfl⟩, rfl⟩

theorem witness_CodecBytesAndWeights : 7 < 8 ∧ (pattern 8).length = 8 := by decide

theorem witness_Codec64RoundTrip : (pattern 8).length = 8 := by decide

theorem witness_Codec32RoundTrip : 3 < 4 ∧ (pattern 4).length = 4 := by decide

theorem witness_BlockBytePosition :
    (pattern 128).length = 128 ∧ 127 < 128 ∧
      (pattern 128)[127]? = some ((blockWord (pattern 128) (127 / 8)).extractLsb' (56 - 8 * (127 % 8)) 8) := by decide +kernel

theorem witness_RotationMovesEveryBit :
    (1 ≤ 63 ∧ 63 ≤ 63 ∧ 63 < 64) ∧ (rotr 2#64 63).getLsbD 2 = (2#64).getLsbD ((2 + 63) % 64) ∧
      (rotr 1#64 1).getLsbD 63 = (1#64).getLsbD ((63 + 1) % 64) ∧
      (56 < 64 ∧ 56 + 7 < 64) ∧ (57 < 64 ∧ ¬57 + 7 < 64) := by decide

theorem witness_ChooseAndMajority : 63 < 64 ∧ (ch (1#64 <<< 63) (1#64 <<< 63) 0#64).getLsbD 63 = true := by decide

theorem witness_ScheduleFollowsRecurrence : 15 < 16 ∧ (16 ≤ 16 ∧ 16 < 80) ∧ (16 ≤ 79 ∧ 79 < 80) := by decide

/-- The registers after `t` rounds of a compression. -/
def workAfter (hin : Chain) (m : List Byte) : Nat → Work
  | 0 => loadWork hin
  | t + 1 => oneRound (roundConstants.getD t 0#64) ((schedule m).getD t 0#64) (workAfter hin m t)

theorem witness_CompressRunsEightyRounds :
    workAfter iv abcBlock 0 =
        { a := iv.h0, b := iv.h1, c := iv.h2, d := iv.h3, e := iv.h4, f := iv.h5, g := iv.h6, h := iv.h7 } ∧
      ∀ t, t < 80 → workAfter iv abcBlock (t + 1) =
        oneRound (roundConstants.getD t 0#64) ((schedule abcBlock).getD t 0#64) (workAfter iv abcBlock t) :=
  ⟨rfl, fun _ _ => rfl⟩

theorem witness_TablesAreRootsOfPrimes : 79 < 80 ∧ (7 : Fin 8).val = 7 := by decide

theorem represents_empty (s : State) : Represents [] (freshContext s) :=
  ⟨rfl, rfl, by show (0#64 ++ 0#64 : BitVec 128) = _; decide, rfl,
    fun o ho => absurd (show o.toNat < 0 from ho) (Nat.not_lt_zero _)⟩

theorem witness_ContextStandsForTheMessage :
    (State.reset.phase ≠ .fault ∧ ∃ t, exec .init State.reset = .next t) ∧
      (freshContext State.reset).buf.wf = true ∧ Represents [] (freshContext State.reset) ∧ 8#4 ≤ 8#4 ∧
      ∃ t, exec (.update 8#4 0x6162636465666768#64) (freshContext State.reset) = .next t :=
  ⟨⟨by decide, _, rfl⟩, rfl, represents_empty _, by decide, _, rfl⟩

/-- The step clause: a READY engine that takes an UPDATE, one outside READY that takes INIT, and one that idles. -/
theorem witness_ContextStandsForTheMessage_step :
    ((freshContext State.reset).buf.wf = true ∧
      (∃ t, step (sending (freshContext State.reset) [cmdMove 0x802#32]) = .next t ∧ t.phase = .ready) ∧
      messageAfter [] (sending (freshContext State.reset) [cmdMove 0x802#32]) = zeros 8) ∧
    (State.reset.phase ≠ .ready ∧ (∃ t, step (sending State.reset [cmdMove 1#32]) = .next t ∧ t.phase = .ready) ∧
      messageAfter [0x61#8] (sending State.reset [cmdMove 1#32]) = []) ∧
    step State.reset = .next State.reset :=
  ⟨⟨rfl, ⟨_, rfl, rfl⟩, by decide⟩, ⟨by decide, ⟨_, rfl, rfl⟩, by decide⟩, rfl⟩

theorem witness_FinalizeAnswersTheDigest :
    (freshContext State.reset).buf.wf = true ∧ Represents [] (freshContext State.reset) := ⟨rfl, represents_empty _⟩

/-- Two beats, one of them empty, and a further command after FINALIZE. -/
theorem witness_AnySplitGivesTheDigest :
    State.reset.phase ≠ .fault ∧ (∀ b ∈ ([(8#4, 5#64), (0#4, 6#64)] : List Beat), b.1 ≤ 8#4) ∧
      (sending State.reset (sendAll (hashCommands [(8#4, 5#64), (0#4, 6#64)]) ++ [cmdMove 0#32])).inbox =
        sendAll (hashCommands [(8#4, 5#64), (0#4, 6#64)]) ++ [cmdMove 0#32] :=
  ⟨by decide, by simp, rfl⟩

theorem witness_UpdateBytesExpansionDelivers : 1 < ((pattern 9).length + 7) / 8 := by decide

theorem witness_HashReturnsTheDigest :
    finalized.phase ≠ .fault ∧
      (sending finalized (sendAll (hashExpansion [0x61, 0x62, 0x63]) ++ [])).inbox =
        sendAll (hashExpansion [0x61, 0x62, 0x63]) ++ [] := by decide

/-- Two READY engines that differ in a buffer byte at or above `blen`. -/
theorem witness_UnspecifiedBytesNeverObserved :
    ∃ s s' : State, s ≠ s' ∧ s.buf.wf = true ∧ s'.buf.wf = true ∧ SameButUnspecified s s' ∧
      (∃ t, step s = .next t) ∧ ∃ t', step s' = .next t' := by
  refine ⟨sending (readyWith 0#64 8#64 [0x61]) [cmdMove 0x102#32],
    { sending (readyWith 0#64 8#64 [0x61]) [cmdMove 0x102#32] with buf := [(0, 0x61#8), (1, 0x99#8)] },
    by decide, by decide, by decide, ⟨⟨rfl, rfl, rfl, rfl, ?_⟩, rfl, rfl, rfl, rfl⟩, ⟨_, rfl⟩, ⟨_, rfl⟩⟩
  have h : ∀ o : Offset, o < 1#7 → Memory.read [(0, 0x61#8)] o = Memory.read [(0, 0x61#8), (1, 0x99#8)] o := by decide
  exact h

theorem witness_EnginesAreIndependent :
    (1 ≠ 0) ∧ (Platform.mk [State.reset, finalized]).engines[0]? = (Platform.mk [State.reset, State.reset]).engines[0]? := by
  decide

theorem witness_EnginesStartAtReset : ∃ s, s ∈ Platform.reset.engines :=
  ⟨State.reset, by rw [Platform.reset, List.mem_replicate]; exact ⟨by simp [Config.numEngines], rfl⟩⟩

/-- Commands with different DATA, and one with a reserved bit set, in states whose contexts differ, at the edges of the
compression count. -/
theorem witness_LatencyIsDataIndependent :
    (opField 0x302#32 = opField 0x312#32 ∧ nbField 0x302#32 = nbField 0x312#32 ∧
      (readyWith 0#64 8#64 [0x61]).phase = (readyWith 7#64 9#64 [0x62]).phase ∧
      commandCompressions { cmd := 0x302#32, data := 1#64 } (readyWith 0#64 8#64 [0x61]) =
        commandCompressions { cmd := 0x312#32, data := 2#64 } (readyWith 7#64 9#64 [0x62])) ∧
      (readyWith 0#64 8#64 [0x61]).blen = (readyWith 7#64 9#64 [0x62]).blen ∧
      ((readyWith 0#64 0x3C0#64 (pattern 120)).buf.wf = true ∧ (readyWith 0#64 0x3C0#64 (pattern 120)).phase = .ready ∧
        8#4 ≤ 8#4 ∧ compressions (.update 7#4 0#64) .ready 120#7 = 0 ∧ compressions (.update 8#4 0#64) .ready 120#7 = 1) ∧
      ∃ t, exec (.update 8#4 0#64) (readyWith 0#64 0x3C0#64 (pattern 120)) = .next t :=
  ⟨by decide, by decide, by decide +kernel, _, rfl⟩

/-- The longest tail that takes one block, and the shortest that takes two. -/
theorem witness_FinalizeCompressionCount :
    ((readyWith 0#64 0x378#64 (pattern 111)).phase = .ready ∧ (readyWith 0#64 0x378#64 (pattern 111)).buf.wf = true ∧
      (compressedBlocks .finalize (readyWith 0#64 0x378#64 (pattern 111))).length = 1) ∧
    ((readyWith 0#64 0x380#64 (pattern 112)).phase = .ready ∧ (readyWith 0#64 0x380#64 (pattern 112)).buf.wf = true ∧
      (compressedBlocks .finalize (readyWith 0#64 0x380#64 (pattern 112))).length = 2) := by decide +kernel

end Sys2Proof.Tests
end

