-- ==== Sys2Proof/Proofs/Rotation.lean ====
section
/-! PROOF. The rotations and the four sigma functions bit by bit (R11, R121 to R124). -/

namespace Sys2Proof.Machine

theorem getLsbD_shr (x : Word) (n i : Nat) :
    (shr x n).getLsbD i = (decide (i + n < 64) && x.getLsbD (i + n)) := by
  rw [shr, BitVec.getLsbD_ushiftRight, Nat.add_comm n i]
  by_cases h : i + n < 64
  · simp [h]
  · simp [h, BitVec.getLsbD_of_ge x (i + n) (Nat.le_of_not_lt h)]

theorem getLsbD_shl (x : Word) (n : Nat) {i : Nat} (hi : i < 64) :
    (shl x n).getLsbD i = (decide (n ≤ i) && x.getLsbD (i - n)) := by
  rw [shl, BitVec.getLsbD_shiftLeft]
  by_cases h : i < n
  · simp [h, Nat.not_le_of_lt h]
  · simp [h, hi, Nat.le_of_not_lt h]

/-- Below the wrap the bit comes from the right shift, from it on from the left shift (R11). -/
theorem getLsbD_rotr (x : Word) {n i : Nat} (hn : n ≤ 63) (hi : i < 64) :
    (rotr x n).getLsbD i = x.getLsbD ((i + n) % 64) := by
  rw [rotr, BitVec.getLsbD_or, getLsbD_shr, getLsbD_shl x _ hi]
  by_cases h : i + n < 64
  · have hleft : ¬64 - n ≤ i := by omega
    simp [h, hleft, Nat.mod_eq_of_lt h]
  · have hleft : 64 - n ≤ i := by omega
    have hwrap : i - (64 - n) = (i + n) % 64 := by omega
    simp [h, hleft, hwrap]

theorem getLsbD_bigSigma0 (x : Word) {i : Nat} (hi : i < 64) :
    (bigSigma0 x).getLsbD i =
      ((x.getLsbD ((i + 28) % 64) ^^ x.getLsbD ((i + 34) % 64)) ^^ x.getLsbD ((i + 39) % 64)) := by
  simp (disch := omega) only [bigSigma0, BitVec.getLsbD_xor, getLsbD_rotr]

theorem getLsbD_bigSigma1 (x : Word) {i : Nat} (hi : i < 64) :
    (bigSigma1 x).getLsbD i =
      ((x.getLsbD ((i + 14) % 64) ^^ x.getLsbD ((i + 18) % 64)) ^^ x.getLsbD ((i + 41) % 64)) := by
  simp (disch := omega) only [bigSigma1, BitVec.getLsbD_xor, getLsbD_rotr]

theorem getLsbD_smallSigma0 (x : Word) {i : Nat} (hi : i < 64) :
    (smallSigma0 x).getLsbD i =
      ((x.getLsbD ((i + 1) % 64) ^^ x.getLsbD ((i + 8) % 64)) ^^ (decide (i + 7 < 64) && x.getLsbD (i + 7))) := by
  simp (disch := omega) only [smallSigma0, BitVec.getLsbD_xor, getLsbD_rotr, getLsbD_shr]

theorem getLsbD_smallSigma1 (x : Word) {i : Nat} (hi : i < 64) :
    (smallSigma1 x).getLsbD i =
      ((x.getLsbD ((i + 19) % 64) ^^ x.getLsbD ((i + 61) % 64)) ^^ (decide (i + 6 < 64) && x.getLsbD (i + 6))) := by
  simp (disch := omega) only [smallSigma1, BitVec.getLsbD_xor, getLsbD_rotr, getLsbD_shr]

/-- Settles O43: each sigma function's bits follow from the bits of its rotations and shifts; the corner cases and the
rules' examples are evaluated. -/
theorem rotationMovesEveryBit : Obligations.RotationMovesEveryBit := by
  refine ⟨fun x n i _ hn hi => getLsbD_rotr x hn hi, fun x i hi => ?_, ?zero, ?allOnes, ?examples, ?one⟩
  · exact ⟨getLsbD_bigSigma0 x hi, getLsbD_bigSigma1 x hi, getLsbD_smallSigma0 x hi, getLsbD_smallSigma1 x hi⟩
  case zero => decide
  case allOnes => decide
  case examples => decide
  case one => decide

end Sys2Proof.Machine
end

