-- ==== Sys2Proof/Proofs/StateInvariant.lean ====
section
/-! PROOF. The status word's layout (R28), the reset values (R34), and the invariant of the engine: every operation keeps
it, so every step does, and every response is legal (R22, R78, R174, R206). -/

namespace Sys2Proof.Machine

/-! ### The status word -/

/-- The parts of the status word do not overlap (R28). -/
theorem statusWord_fields (p : Phase) (cause : BitVec 4) (ok : Bool) :
    (statusWord p cause ok).extractLsb' 0 2 = p.code ∧ (statusWord p cause ok).extractLsb' 2 2 = 0#2 ∧
      (statusWord p cause ok).extractLsb' 4 4 = cause ∧ (statusWord p cause ok).extractLsb' 8 1 = BitVec.ofBool ok ∧
      (statusWord p cause ok).extractLsb' 9 23 = 0#23 := by
  unfold statusWord
  generalize p.code = code
  revert code cause ok
  decide

/-- Settles O19: the fields from the layout of the word, the codes by the phase. -/
theorem statusWordFields : Obligations.StatusWordFields := by
  intro p cause ok
  obtain ⟨hphase, hrsv0, hcause, hok, hrsv1⟩ := statusWord_fields p cause ok
  refine ⟨hphase, hrsv0, hcause, hok, hrsv1, ?_, ?_, ?_, ?_⟩
  all_goals rintro rfl; rfl

theorem Phase.code_eq_three_iff (p : Phase) : p.code = 3#2 ↔ p = .fault := by cases p <;> decide

/-! ### Reset -/

/-- Settles O13: the words and the length by evaluation, the buffer because an unlisted byte reads 0. -/
theorem resetValues : Obligations.ResetValues :=
  ⟨rfl, rfl, by decide, rfl, rfl, Memory.read_zero, rfl⟩

/-! ### The invariant, operation by operation -/

theorem FaultCause.code_ne_zero (c : FaultCause) : c.code ≠ 0#4 := by cases c <;> decide

theorem FaultCause.code_le_three (c : FaultCause) : c.code ≤ 3#4 := by cases c <;> decide

/-- The channels are no part of the invariant: taking a move keeps it. -/
theorem State.Inv.take {s : State} (h : s.Inv) (rest : List HostMove) : State.Inv { s with inbox := rest } := h

theorem State.Inv.respond {s : State} (h : s.Inv) (ok : Bool) (digest : List Byte) : (respond ok digest s).Inv := h

theorem State.Inv.refuse {s : State} (h : s.Inv) : (refuse s).Inv := h.respond false (zeros 64)

theorem raiseFault_cleared (c : FaultCause) (s : State) : (raiseFault c s).Cleared := ⟨rfl, rfl, rfl, rfl, rfl⟩

theorem hardwareReset_cleared (s : State) : (hardwareReset s).Cleared := ⟨rfl, rfl, rfl, rfl, rfl⟩

theorem finalizeContext_cleared (s : State) : (finalizeContext s).Cleared := ⟨rfl, rfl, rfl, rfl, rfl⟩

theorem raiseFault_inv (c : FaultCause) (s : State) : (raiseFault c s).Inv :=
  ⟨rfl, iff_of_true c.code_ne_zero rfl, c.code_le_three, fun _ => raiseFault_cleared c s⟩

/-- Outside FAULT the invariant asks for the buffer's canonical form, cause 0, and a zero context unless READY. -/
theorem State.inv_of_live {s : State} (hwf : s.buf.wf = true) (hcause : s.cause = 0#4) (hs : s.phase ≠ .fault)
    (hclear : s.phase ≠ .ready → s.Cleared) : s.Inv :=
  ⟨hwf, iff_of_false (not_not.2 hcause) hs, by rw [hcause]; decide, hclear⟩

theorem hardwareReset_inv (s : State) : (hardwareReset s).Inv :=
  State.inv_of_live rfl rfl (by simp) fun _ => hardwareReset_cleared s

/-- Settles O14: the reset state is what a hardware reset makes of it. -/
theorem invariantAtReset : Obligations.InvariantAtReset := hardwareReset_inv State.reset

/-- Outside FAULT the recorded cause is 0 (R22). -/
theorem State.Inv.cause_eq_zero {s : State} (h : s.Inv) (hs : s.phase ≠ .fault) : s.cause = 0#4 := by
  obtain ⟨-, hcause, -, -⟩ := h
  exact not_not.1 (mt hcause.1 hs)

theorem freshContext_inv {s : State} (h : s.Inv) (hs : s.phase ≠ .fault) : (freshContext s).Inv :=
  State.inv_of_live rfl (h.cause_eq_zero hs) (by simp) (by simp)

theorem updateBytes_inv (x : List Byte) {s : State} (h : s.Inv) (hs : s.phase = .ready) : (updateBytes x s).Inv :=
  State.inv_of_live (updateBytes_wf x h.1) (by simpa using h.cause_eq_zero (by simp [hs])) (by simp [hs]) (by simp [hs])

theorem finalizeContext_inv {s : State} (h : s.Inv) (hs : s.phase = .ready) : (finalizeContext s).Inv :=
  State.inv_of_live rfl (h.cause_eq_zero (by simp [hs])) (by simp) fun _ => finalizeContext_cleared s

theorem exec_inv {i : Instr} {s t : State} (h : s.Inv) (he : exec i s = .next t) : t.Inv := by
  obtain ⟨-, -, rfl⟩ | ⟨-, c, rfl⟩ | ⟨-, rfl⟩ | ⟨-, hs, rfl⟩ | ⟨n, data, -, -, hs, rfl⟩ | ⟨-, hs, rfl⟩ := exec_cases he
  · exact h.refuse
  · exact raiseFault_inv c s
  · exact h.respond _ _
  · exact (freshContext_inv h hs).respond _ _
  · exact (updateBytes_inv (beat n data) h hs).respond _ _
  · exact finalizeContext_inv h hs

/-- An illegal word has the effect of an UPDATE with NB above 8 (log entry 9), so what holds of every instruction holds of
it too. -/
theorem exec_of_illegal (s : State) : exec (.update 9#4 0#64) s = .next (rejectIllegal s) :=
  exec_update_illegal (by decide) 0#64 s

theorem step_inv {s t : State} (h : s.Inv) (hstep : step s = .next t) : t.Inv := by
  obtain ⟨-, rfl⟩ | ⟨cut, rest, -, rfl⟩ | ⟨c, rest, e, -, -, rfl⟩ | ⟨c, rest, i, -, -, he⟩ := step_cases hstep
  · exact h
  · exact hardwareReset_inv _
  · exact exec_inv (h.take rest) (exec_of_illegal _)
  · exact exec_inv (h.take rest) he

/-- Settles O15, by the cases of a step: each operation keeps the invariant or establishes it. -/
theorem stepKeepsInvariant : Obligations.StepKeepsInvariant := fun _ _ => step_inv

/-! ### The responses -/

/-- A response whose status is computed from a state that meets the invariant is legal (R28, R78). -/
theorem State.Inv.legal_response {t : State} (h : t.Inv) (ok : Bool) {digest : List Byte} (hd : digest.length = 64) :
    Response.Legal { status := statusWord t.phase t.cause ok, digest := digest } := by
  obtain ⟨-, hcause, hle, -⟩ := h
  obtain ⟨hphase, hrsv0, hcauseField, -, hrsv1⟩ := statusWord_fields t.phase t.cause ok
  have hzero : t.cause = 0#4 ↔ t.phase.code ≠ 3#2 := by
    rw [Ne, Phase.code_eq_three_iff, ← hcause, not_not]
  refine ⟨hrsv0, hrsv1, ?_, ?_, hd⟩
  · rwa [hcauseField]
  · rwa [hcauseField, hphase]

/-- A step answers nothing, or one response whose status is computed from the state after it. -/
theorem step_response {s t : State} (hstep : step s = .next t) :
    t.outbox = s.outbox ∨
      ∃ ok d, t.outbox = s.outbox ++ [{ status := statusWord t.phase t.cause ok, digest := d }] ∧ d.length = 64 := by
  obtain ⟨-, rfl⟩ | ⟨cut, rest, -, rfl⟩ | ⟨c, rest, e, -, -, rfl⟩ | ⟨c, rest, i, -, -, he⟩ := step_cases hstep
  · exact .inl rfl
  · exact .inl rfl
  · exact .inr (exec_response (exec_of_illegal _)).2
  · exact .inr (exec_response he).2

/-- Settles O16: the one response a step adds reports a state that meets the invariant. -/
theorem stepKeepsResponsesLegal : Obligations.StepKeepsResponsesLegal := by
  intro s t hinv hlegal hstep r hr
  obtain hsame | ⟨ok, d, hout, hd⟩ := step_response hstep
  · exact hlegal r (hsame ▸ hr)
  · rw [hout, List.mem_append, List.mem_singleton] at hr
    obtain hold | rfl := hr
    · exact hlegal r hold
    · exact (step_inv hinv hstep).legal_response ok hd

end Sys2Proof.Machine
end

