-- ==== Sys2Proof/Proofs/ContextMessage.lean ====
section
/-! PROOF. What a READY context stands for (R33): every step keeps it, and FINALIZE answers the digest of it (R170 to
R173). -/

namespace Sys2Proof.Machine

/-! ### The buffer's canonical form -/

theorem exec_wf {i : Instr} {s t : State} (h : s.buf.wf = true) (he : exec i s = .next t) : t.buf.wf = true := by
  obtain ⟨-, -, rfl⟩ | ⟨-, c, rfl⟩ | ⟨-, rfl⟩ | ⟨-, -, rfl⟩ | ⟨n, data, -, -, -, rfl⟩ | ⟨-, -, rfl⟩ := exec_cases he
  · exact h
  · exact Memory.wf_zero
  · exact h
  · exact Memory.wf_zero
  · exact updateBytes_wf (beat n data) h
  · exact Memory.wf_zero

theorem step_wf {s t : State} (h : s.buf.wf = true) (hstep : step s = .next t) : t.buf.wf = true := by
  obtain ⟨-, rfl⟩ | ⟨cut, rest, -, rfl⟩ | ⟨c, rest, e, -, -, rfl⟩ | ⟨c, rest, i, -, -, he⟩ := step_cases hstep
  · exact h
  · exact Memory.wf_zero
  · exact exec_wf (s := { s with inbox := rest }) h (exec_of_illegal _)
  · exact exec_wf (s := { s with inbox := rest }) h he

/-! ### INIT and UPDATE -/

theorem represents_freshContext (s : State) : Represents [] (freshContext s) :=
  represents_iff.2 ⟨rfl, by simp [State.cnt], rfl, by simp [State.pending, compressBlocks]⟩

theorem updateBytes_cnt (x : List Byte) (s : State) :
    (updateBytes x s).cnt = s.cnt + BitVec.ofNat 128 (8 * x.length) := by
  rw [← addCount_cnt, State.cnt, updateBytes_cntHi, updateBytes_cntLo, State.cnt]

/-- Delivering `y` to a context that stands for `x`: the blocks of `x ++ y` are those of `x`, then those of the bytes
left over followed by `y` (R165). -/
theorem Represents.updateBytes {x : List Byte} {s : State} (h : Represents x s) (hwf : s.buf.wf = true)
    (y : List Byte) : Represents (x ++ y) (updateBytes y s) := by
  obtain ⟨hphase, hcnt, hh, hpending⟩ := represents_iff.1 h
  obtain ⟨hh', hpending', -⟩ := updateBytes_spec y hwf
  refine represents_iff.2 ⟨by rw [updateBytes_phase, hphase], ?_, ?_, ?_⟩
  · rw [updateBytes_cnt, hcnt, List.length_append, Nat.mul_add, BitVec.ofNat_add]
  · rw [compressBlocks_all_append, ← hh, ← hpending, hh']
  · rw [compressBlocks_all_append, ← hh, ← hpending, hpending']

/-! ### The step -/

theorem messageAfter_status {x : List Byte} {s : State} {c : Command} {rest : List HostMove}
    (h : s.inbox = .command c :: rest) (hd : decode c = .ok .status) : messageAfter x s = x := by
  simp only [messageAfter, h, hd]

theorem rejectIllegal_phase (s : State) : (rejectIllegal s).phase = .fault := by
  by_cases hs : s.phase = .fault
  · rw [rejectIllegal_fault hs, refuse_phase, hs]
  · rw [rejectIllegal_live hs, raiseFault_phase]

/-- After a step that ends in READY, the context stands for what it stood for and what the step delivered. A refusal, a
fault, FINALIZE and a reset end in other phases. -/
theorem step_represents {x : List Byte} {s t : State} (hwf : s.buf.wf = true)
    (hx : s.phase = .ready → Represents x s) (hstep : step s = .next t) (ht : t.phase = .ready) :
    Represents (messageAfter x s) t := by
  obtain ⟨hi, rfl⟩ | ⟨cut, rest, -, rfl⟩ | ⟨c, rest, e, -, -, rfl⟩ | ⟨c, rest, i, hi, hd, he⟩ := step_cases hstep
  case inl =>
    rw [messageAfter_idle hi]
    exact hx ht
  case inr.inl => cases ht
  case inr.inr.inl => rw [rejectIllegal_phase] at ht; cases ht
  obtain ⟨hs, -, rfl⟩ | ⟨-, cause, rfl⟩ | ⟨rfl, rfl⟩ | ⟨rfl, -, rfl⟩ | ⟨n, data, rfl, -, hs, rfl⟩ | ⟨-, -, rfl⟩ :=
    exec_cases he
  · cases hs.symm.trans ht
  · cases ht
  · rw [messageAfter_status hi hd]
    exact hx ht
  · rw [messageAfter_init hi hd]
    exact represents_freshContext { s with inbox := rest }
  · rw [messageAfter_update hi hd]
    exact Represents.updateBytes (s := { s with inbox := rest }) (hx hs) hwf (beat n data)
  · cases ht

/-- Settles O50: INIT stands for the empty message, UPDATE adds its beat, and so every step keeps what R33 says. -/
theorem contextStandsForTheMessage : Obligations.ContextStandsForTheMessage := by
  refine ⟨fun s t hs he => ?_, fun x n data s t hwf hx hn he => ?_, fun x s t hwf hx hstep => ?_⟩
  · rw [exec_init_live hs] at he
    cases he
    exact represents_freshContext s
  · rw [exec_update_ready hn data hx.1] at he
    cases he
    exact hx.updateBytes hwf (beat n data)
  · exact ⟨step_wf hwf hstep, step_represents hwf hx hstep⟩

/-! ### FINALIZE -/

theorem fullBlocks_append {b : List Byte} (hb : b.length = 128) (y : List Byte) :
    fullBlocks (b ++ y) = b :: fullBlocks y := by
  rw [fullBlocks_succ (k := y.length / 128) (by rw [List.length_append]; omega), List.take_left' hb,
    List.drop_left' hb]

theorem fullBlocks_singleton {b : List Byte} (hb : b.length = 128) : fullBlocks b = [b] := by
  have h := fullBlocks_append hb []
  rwa [List.append_nil] at h

theorem zeros_add (m n : Nat) : zeros (m + n) = zeros m ++ zeros n := List.replicate_add m n 0#8

/-- FINALIZE compresses the blocks of the padded tail, one or two of them (R171, R172). -/
theorem finishHash_h_eq_foldl {s : State} (h : s.buf.wf = true) :
    (finishHash s).h = (fullBlocks (paddedTail s)).foldl compress s.h := by
  have hb : s.blen.toNat < 128 := s.blen.isLt
  by_cases hshort : s.blen.toNat ≤ 111
  · have hfill : zeroFill s.blen.toNat = 111 - s.blen.toNat := by unfold zeroFill; omega
    have hlen : (paddedTail s).length = 128 := by rw [length_paddedTail, if_pos hshort]
    rw [finishHash_h h, if_pos hshort, fullBlocks_singleton hlen, paddedTail, hfill, List.foldl_cons, List.foldl_nil]
  · have hfill : zeroFill s.blen.toNat = 127 - s.blen.toNat + 112 := by unfold zeroFill; omega
    have hsplit : paddedTail s = (s.pending ++ [0x80#8] ++ zeros (127 - s.blen.toNat)) ++
        (zeros 112 ++ enc64 s.cntHi ++ enc64 s.cntLo) := by
      simp only [paddedTail, hfill, zeros_add, List.append_assoc]
    have hfirst : (s.pending ++ [0x80#8] ++ zeros (127 - s.blen.toNat)).length = 128 := by
      simp [length_pending]; omega
    have hlast : (zeros 112 ++ enc64 s.cntHi ++ enc64 s.cntLo).length = 128 := by simp
    rw [finishHash_h h, if_neg hshort, hsplit, fullBlocks_append hfirst, fullBlocks_singleton hlast]
    rfl

/-- What follows the message in the padded message (R171, R172). -/
def messagePadding (len : Nat) : List Byte :=
  [0x80#8] ++ zeros (zeroFill len) ++ enc64 (BitVec.ofNat 64 (8 * len / 2 ^ 64)) ++ enc64 (BitVec.ofNat 64 (8 * len))

theorem paddedMessage_eq (x : List Byte) : paddedMessage x = x ++ messagePadding x.length := by
  simp only [paddedMessage, messagePadding, List.append_assoc]

/-- The two words of a 128-bit counter that holds `n` (R24). -/
theorem counterWords_of_cnt {s : State} {n : Nat} (h : s.cnt = BitVec.ofNat 128 n) :
    s.cntHi = BitVec.ofNat 64 (n / 2 ^ 64) ∧ s.cntLo = BitVec.ofNat 64 n := by
  have hval : s.cntHi.toNat * 2 ^ 64 + s.cntLo.toNat = n % 2 ^ 128 := by rw [← cnt_toNat, h, BitVec.toNat_ofNat]
  have hlo := s.cntLo.isLt
  constructor <;> apply BitVec.eq_of_toNat_eq <;> rw [BitVec.toNat_ofNat] <;> omega

/-- The engine pads the buffered bytes with what the definition pads the whole message with. -/
theorem Represents.paddedTail_eq {x : List Byte} {s : State} (h : Represents x s) :
    paddedTail s = s.pending ++ messagePadding x.length := by
  obtain ⟨-, hblen, hcnt, -, -⟩ := h
  obtain ⟨hhi, hlo⟩ := counterWords_of_cnt hcnt
  have hfill : zeroFill s.blen.toNat = zeroFill x.length := by rw [hblen, zeroFill, Nat.mod_mod, zeroFill]
  simp only [paddedTail, messagePadding, hfill, hhi, hlo, List.append_assoc]

/-- The blocks of `x` and more bytes `y`, compressed from IV, are those of the buffered bytes and `y`, compressed from the
chaining state of a context that stands for `x` (R33). -/
theorem Represents.chainOf_append {x : List Byte} {s : State} (h : Represents x s) (y : List Byte) :
    chainOf (x ++ y) = (fullBlocks (s.pending ++ y)).foldl compress s.h := by
  obtain ⟨-, -, hh, hpending⟩ := represents_iff.1 h
  rw [chainOf, ← compressBlocks_fst_eq_foldl _ _ _ rfl, compressBlocks_all_append, ← hh, ← hpending,
    compressBlocks_fst_eq_foldl _ _ _ rfl]

theorem Represents.digest_eq {x : List Byte} {s : State} (h : Represents x s) (hwf : s.buf.wf = true) :
    digestBytes (finishHash s).h = oneShotDigest x := by
  rw [oneShotDigest, finishHash_h_eq_foldl hwf, h.paddedTail_eq, paddedMessage_eq, h.chainOf_append]

/-- Settles O51: the engine's padding of the buffered bytes continues the compression of the full blocks. -/
theorem finalizeAnswersTheDigest : Obligations.FinalizeAnswersTheDigest := by
  intro x s hwf hx
  refine ⟨finalizeContext s, exec_finalize_ready hx.1, ?_⟩
  rw [finalizeContext_outbox, hx.digest_eq hwf]

end Sys2Proof.Machine
end

