-- ==== Sys2Proof/Proofs/UnspecifiedBytes.lean ====
section
/-! PROOF. The buffer bytes at offsets of the length and above are never observed (R26): every operation takes two states
that differ in such bytes only to two states that differ in such bytes only. -/

namespace Sys2Proof.Machine

variable {s s' t t' : State}

/-! ### The context -/

theorem State.Cleared.sameContext (h : s.Cleared) (h' : s'.Cleared) : SameContext s s' := by
  obtain ⟨hh, hhi, hlo, hbuf, hblen⟩ := h
  obtain ⟨hh', hhi', hlo', hbuf', hblen'⟩ := h'
  exact ⟨hh.trans hh'.symm, hhi.trans hhi'.symm, hlo.trans hlo'.symm, hblen.trans hblen'.symm,
    fun _ _ => by rw [hbuf, hbuf']⟩

theorem SameContext.updateBytes (h : SameContext s s') (hwf : s.buf.wf = true) (hwf' : s'.buf.wf = true)
    (x : List Byte) : SameContext (updateBytes x s) (updateBytes x s') := by
  obtain ⟨hh, hhi, hlo, hpending⟩ := sameContext_iff.1 h
  obtain ⟨hspec, hspecPending, -⟩ := updateBytes_spec x hwf
  obtain ⟨hspec', hspecPending', -⟩ := updateBytes_spec x hwf'
  refine sameContext_iff.2 ⟨?_, ?_, ?_, ?_⟩
  · rw [hspec, hspec', hh, hpending]
  · simp only [updateBytes_cntHi, addCount_cntHi, hhi, hlo]
  · simp only [updateBytes_cntLo, addCount_cntLo, hlo]
  · rw [hspecPending, hspecPending', hh, hpending]

/-- The digest reads the buffer below its length only. -/
theorem SameContext.finishHash_h_eq (h : SameContext s s') (hwf : s.buf.wf = true) (hwf' : s'.buf.wf = true) :
    (finishHash s).h = (finishHash s').h := by
  obtain ⟨hh, hhi, hlo, hblen, hread⟩ := h
  have htail : paddedTail s = paddedTail s' := by
    rw [paddedTail, paddedTail, pending_eq_of_read hblen hread, hblen, hhi, hlo]
  rw [finishHash_h_eq_foldl hwf, finishHash_h_eq_foldl hwf', htail, hh]

/-! ### The operations -/

theorem SameButUnspecified.phase_eq (h : SameButUnspecified s s') : s.phase = s'.phase := by
  obtain ⟨-, hphase, -, -, -⟩ := h
  exact hphase

theorem SameButUnspecified.inbox_eq (h : SameButUnspecified s s') : s.inbox = s'.inbox := by
  obtain ⟨-, -, -, hin, -⟩ := h
  exact hin

theorem SameButUnspecified.respond (h : SameButUnspecified s s') (ok : Bool) (digest : List Byte) :
    SameButUnspecified (respond ok digest s) (respond ok digest s') := by
  obtain ⟨hctx, hphase, hcause, hin, hout⟩ := h
  exact ⟨hctx, hphase, hcause, hin, by rw [respond_outbox, respond_outbox, hphase, hcause, hout]⟩

theorem SameButUnspecified.raiseFault (h : SameButUnspecified s s') (c : FaultCause) :
    SameButUnspecified (raiseFault c s) (raiseFault c s') := by
  obtain ⟨-, -, -, hin, hout⟩ := h
  exact ⟨(raiseFault_cleared c s).sameContext (raiseFault_cleared c s'), rfl, rfl, hin,
    by rw [raiseFault_outbox, raiseFault_outbox, hout]⟩

theorem SameButUnspecified.hardwareReset (h : SameButUnspecified s s') :
    SameButUnspecified (hardwareReset s) (hardwareReset s') := by
  obtain ⟨-, -, -, hin, hout⟩ := h
  exact ⟨(hardwareReset_cleared s).sameContext (hardwareReset_cleared s'), rfl, rfl, hin, hout⟩

theorem SameButUnspecified.freshContext (h : SameButUnspecified s s') :
    SameButUnspecified (freshContext s) (freshContext s') := by
  obtain ⟨-, -, hcause, hin, hout⟩ := h
  exact ⟨⟨rfl, rfl, rfl, rfl, fun _ _ => rfl⟩, rfl, hcause, hin, hout⟩

theorem SameButUnspecified.updateBytes (h : SameButUnspecified s s') (hwf : s.buf.wf = true) (hwf' : s'.buf.wf = true)
    (x : List Byte) : SameButUnspecified (updateBytes x s) (updateBytes x s') := by
  obtain ⟨hctx, hphase, hcause, hin, hout⟩ := h
  exact ⟨hctx.updateBytes hwf hwf' x, by simp [hphase], by simp [hcause], by simp [hin], by simp [hout]⟩

theorem SameButUnspecified.finalizeContext (h : SameButUnspecified s s') (hwf : s.buf.wf = true)
    (hwf' : s'.buf.wf = true) : SameButUnspecified (finalizeContext s) (finalizeContext s') := by
  obtain ⟨hctx, -, hcause, hin, hout⟩ := h
  exact ⟨(finalizeContext_cleared s).sameContext (finalizeContext_cleared s'), rfl, hcause, hin,
    by rw [finalizeContext_outbox, finalizeContext_outbox, hcause, hout, hctx.finishHash_h_eq hwf hwf']⟩

theorem SameButUnspecified.whenReady (h : SameButUnspecified s s') {f : State → State}
    (hf : SameButUnspecified (f s) (f s')) : SameButUnspecified (whenReady f s) (whenReady f s') := by
  have hphase := h.phase_eq
  cases hs : s.phase with
  | uninit =>
    rw [whenReady_uninit hs, whenReady_uninit (hphase ▸ hs)]
    exact h.raiseFault _
  | ready =>
    rw [whenReady_ready hs, whenReady_ready (hphase ▸ hs)]
    exact hf
  | finalized =>
    rw [whenReady_finalized hs, whenReady_finalized (hphase ▸ hs)]
    exact h.raiseFault _
  | fault =>
    rw [whenReady_fault hs, whenReady_fault (hphase ▸ hs)]
    exact h.respond _ _

theorem SameButUnspecified.rejectIllegal (h : SameButUnspecified s s') :
    SameButUnspecified (rejectIllegal s) (rejectIllegal s') := by
  have hphase := h.phase_eq
  by_cases hs : s.phase = .fault
  · rw [rejectIllegal_fault hs, rejectIllegal_fault (hphase ▸ hs)]
    exact h.respond _ _
  · rw [rejectIllegal_live hs, rejectIllegal_live (hphase ▸ hs)]
    exact h.raiseFault _

/-! ### The step -/

theorem SameButUnspecified.exec (h : SameButUnspecified s s') (hwf : s.buf.wf = true) (hwf' : s'.buf.wf = true)
    {i : Instr} (he : exec i s = .next t) (he' : exec i s' = .next t') : SameButUnspecified t t' := by
  have hphase := h.phase_eq
  cases i with
  | status =>
    cases he; cases he'
    exact h.respond _ _
  | init =>
    by_cases hs : s.phase = .fault
    · rw [exec_init_fault hs] at he; rw [exec_init_fault (hphase ▸ hs)] at he'
      cases he; cases he'
      exact h.respond _ _
    · rw [exec_init_live hs] at he; rw [exec_init_live (hphase ▸ hs)] at he'
      cases he; cases he'
      exact h.freshContext.respond _ _
  | update n data =>
    by_cases hn : n ≤ 8#4
    · rw [exec_update_legal hn] at he he'
      cases he; cases he'
      exact h.whenReady ((h.updateBytes hwf hwf' (beat n data)).respond _ _)
    · rw [exec_update_illegal hn] at he he'
      cases he; cases he'
      exact h.rejectIllegal
  | finalize =>
    rw [exec_finalize] at he he'
    cases he; cases he'
    exact h.whenReady (h.finalizeContext hwf hwf')

theorem SameButUnspecified.take (h : SameButUnspecified s s') (rest : List HostMove) :
    SameButUnspecified { s with inbox := rest } { s' with inbox := rest } := by
  obtain ⟨hctx, hphase, hcause, -, hout⟩ := h
  exact ⟨hctx, hphase, hcause, rfl, hout⟩

theorem step_legal {c : Command} {rest : List HostMove} {i : Instr} (h : s.inbox = .command c :: rest)
    (hd : decode c = .ok i) : step s = exec i { s with inbox := rest } := by
  simp only [step, fetch, h, hd]

/-- Settles O56: both states take the same move, and each thing a step can do takes such states to such states. -/
theorem unspecifiedBytesNeverObserved : Obligations.UnspecifiedBytesNeverObserved := by
  intro s s' t t' hwf hwf' h hstep hstep'
  obtain ⟨hi, rfl⟩ | ⟨cut, rest, hi, rfl⟩ | ⟨c, rest, e, hi, hd, rfl⟩ | ⟨c, rest, i, hi, hd, he⟩ := step_cases hstep
  all_goals rw [h.inbox_eq] at hi
  · rw [step_idle hi] at hstep'
    cases hstep'
    exact h
  · rw [step_reset hi] at hstep'
    cases hstep'
    exact (h.take rest).hardwareReset
  · rw [step_illegal hi hd] at hstep'
    cases hstep'
    exact (h.take rest).rejectIllegal
  · rw [step_legal hi hd] at hstep'
    exact (h.take rest).exec hwf hwf' he hstep'

end Sys2Proof.Machine
end

