-- ==== Sys2Proof/Proofs/Responses.lean ====
section
/-! PROOF. Each command is answered by one response, in order, and a reset by none (R60, R70, R213, R231). -/

namespace Sys2Proof.Machine

/-- A single response shows PHASE = FAULT exactly if its status was computed in FAULT (R28, R177). -/
theorem faulted_singleton_iff (p : Phase) (cause : BitVec 4) (ok : Bool) (digest : List Byte) :
    Faulted [{ status := statusWord p cause ok, digest := digest }] ↔ p = .fault := by
  obtain ⟨hphase, -⟩ := statusWord_fields p cause ok
  rw [Faulted, ← Phase.code_eq_three_iff, ← hphase]
  simp

/-- A step that takes a command is an instruction's effect with the move taken: an illegal word has that of an UPDATE
with NB above 8 (log entry 9). -/
theorem step_command {s : State} {c : Command} {rest : List HostMove} (h : s.inbox = .command c :: rest) :
    ∃ i, step s = exec i { s with inbox := rest } := by
  cases hd : decode c with
  | ok i => exact ⟨i, step_legal h hd⟩
  | error e => exact ⟨.update 9#4 0#64, by rw [step_illegal h hd, exec_of_illegal]⟩

/-- Settles O11: the three moves in turn; every instruction answers one response, computed from the state after it. -/
theorem oneResponsePerCommand : Obligations.OneResponsePerCommand := by
  intro s t hstep
  refine ⟨fun c rest hi => ?command, fun cut rest hi => ?reset, fun hi => ?idle⟩
  case command =>
    obtain ⟨i, hexec⟩ := step_command hi
    obtain ⟨hin, ok, d, hout, -⟩ := exec_response (hexec.symm.trans hstep)
    exact ⟨hin, _, hout, faulted_singleton_iff _ _ _ _⟩
  case reset =>
    rw [step_reset hi] at hstep
    cases hstep
    exact ⟨rfl, rfl⟩
  case idle =>
    rw [step_idle hi] at hstep
    cases hstep
    rfl

end Sys2Proof.Machine
end

