-- ==== Sys2Proof/Proofs/BlockBytes.lean ====
section
/-! PROOF. Where the bytes of a block stand in its words (R54): `Dec64` puts byte `k` where `Enc64` reads it. -/

namespace Sys2Proof.Machine

/-- `Dec64` as the sum of what its eight bytes contribute (R102). -/
theorem dec64_eq_sum (b : List Byte) :
    dec64 b = dec64Term b 0 + (dec64Term b 1 + (dec64Term b 2 + (dec64Term b 3 +
      (dec64Term b 4 + (dec64Term b 5 + (dec64Term b 6 + dec64Term b 7)))))) := by
  have hrange : List.range 8 = [0, 1, 2, 3, 4, 5, 6, 7] := by decide
  simp only [dec64, hrange, List.map_cons, List.map_nil, List.sum_cons, List.sum_nil, add_zero]

/-- Byte `k` of the word that `Dec64` reads is byte `k` of the list: as a number it is the digit with weight
`2^(56 - 8 k)`, and the eight weights are those of eight base-256 digits (R101, R102). -/
theorem wordByte_dec64 (b : List Byte) {k : Nat} (hk : k < 8) : wordByte (dec64 b) k = b.getD k 0#8 := by
  apply BitVec.eq_of_toNat_eq
  rw [wordByte, extractByte_toNat, dec64_eq_sum]
  simp (disch := decide) only [BitVec.toNat_add, dec64Term_toNat]
  interval_cases k <;> omega

/-- Settles O42: block word `p / 8` is `Dec64` of the eight bytes from `8 (p / 8)` on, of which byte `p` is number
`p mod 8`. -/
theorem blockBytePosition : Obligations.BlockBytePosition := by
  intro m p hm hp
  have hmod : p % 8 < 8 := Nat.mod_lt p (by decide)
  have hget : ((m.drop (8 * (p / 8))).take 8).getD (p % 8) 0#8 = m.getD p 0#8 := by
    simp [List.getD_eq_getElem?_getD, List.getElem?_take_of_lt hmod, List.getElem?_drop, Nat.div_add_mod]
  calc m[p]? = some (m.getD p 0#8) := by rw [List.getD_eq_getElem _ _ (hm ▸ hp), List.getElem?_eq_getElem]
    _ = some (wordByte (blockWord m (p / 8)) (p % 8)) := by rw [blockWord, wordByte_dec64 _ hmod, hget]

end Sys2Proof.Machine
end

