-- ==== Sys2Proof/Proofs/Engines.lean ====
section
/-! PROOF. The engines of a platform do not interact (R61). -/

namespace Sys2Proof.Machine

/-- What a step of engine `k` makes of engine `j`: its own next state if it is that engine, nothing otherwise. -/
theorem stepAt_getElem? (p : Platform) (k j : Nat) :
    (p.stepAt k).engines[j]? = if k = j then p.engines[j]?.map advance else p.engines[j]? := by
  rw [Platform.stepAt, List.getElem?_modify]
  split <;> simp

theorem stepAt_getElem?_self (p : Platform) (k : Nat) :
    (p.stepAt k).engines[k]? = p.engines[k]?.map advance := by rw [stepAt_getElem?, if_pos rfl]

theorem stepAt_getElem?_other (p : Platform) {k j : Nat} (h : j ≠ k) :
    (p.stepAt k).engines[j]? = p.engines[j]? := by rw [stepAt_getElem?, if_neg h.symm]

/-- Steps of two engines give the same platform in either order: each engine gets its own step. -/
theorem stepAt_comm (p : Platform) (k j : Nat) : (p.stepAt k).stepAt j = (p.stepAt j).stepAt k := by
  have hengines : ((p.stepAt k).stepAt j).engines = ((p.stepAt j).stepAt k).engines := by
    refine List.ext_getElem? fun i => ?_
    simp only [stepAt_getElem?]
    split <;> split <;> rfl
  exact congrArg Platform.mk hengines

/-- Settles O57, from what a step of one engine makes of each. -/
theorem enginesAreIndependent : Obligations.EnginesAreIndependent := by
  refine ⟨fun p k j hj => stepAt_getElem?_other p hj, fun p p' k h => ?_, stepAt_comm⟩
  rw [stepAt_getElem?_self, stepAt_getElem?_self, h]

end Sys2Proof.Machine
end

