-- ==== Sys2Proof/Proofs/HashRun.lean ====
section
/-! PROOF. The run of INIT, any legal beats, FINALIZE: the last response carries the digest of the message, however it
was split (R66, R167, R176, R232). -/

namespace Sys2Proof.Machine

/-! ### Sending an instruction -/

/-- The decoder reads back what the encoder writes (R80). -/
theorem decode_encode {i : Instr} (h : i.wellFormed = true) : decode (encode i) = .ok i := by
  cases i with
  | status => rfl
  | init => rfl
  | update n data =>
    obtain ⟨hop, hrsv0, hnb, hrsv1⟩ := updateWord_fields n
    have hn : n ≤ 8#4 := by simpa [Instr.wellFormed] using h
    simp [decode, encode, hop, hrsv0, hnb, hrsv1, hn]
  | finalize => rfl

/-- The step that takes a sent instruction runs it. -/
theorem step_sent {s : State} {i : Instr} {rest : List HostMove} (h : i.wellFormed = true)
    (hi : s.inbox = .command (encode i) :: rest) : step s = exec i { s with inbox := rest } :=
  step_legal hi (decode_encode h)

/-! ### Midway through a hash -/

/-- The response that OK answers in READY (R78, R163, R164). -/
def readyResponse (cause : BitVec 4) : Response := { status := statusWord .ready cause true, digest := zeros 64 }

/-- `t` is the engine `k` commands after `s`, each answered OK in READY: its context stands for `x`, and the moves
`rest` are still to be taken. -/
structure Midway (s : State) (k : Nat) (x : List Byte) (rest : List HostMove) (t : State) : Prop where
  wf : t.buf.wf = true
  represents : Represents x t
  cause : t.cause = s.cause
  inbox : t.inbox = rest
  outbox : t.outbox = s.outbox ++ List.replicate k (readyResponse s.cause)

/-- INIT starts it with the empty message (R163). -/
theorem step_init_midway {s : State} {rest : List HostMove} (hs : s.phase ≠ .fault)
    (hi : s.inbox = .command (encode .init) :: rest) : ∃ t, step s = .next t ∧ Midway s 1 [] rest t :=
  ⟨_, (step_sent rfl hi).trans (exec_init_live hs), rfl, represents_freshContext { s with inbox := rest }, rfl, rfl,
    rfl⟩

variable {s t : State} {k : Nat} {x : List Byte} {rest : List HostMove}

/-- One legal UPDATE adds its beat (R164, R167). -/
theorem Midway.step_update {n : BitVec 4} {data : Word}
    (h : Midway s k x (.command (encode (.update n data)) :: rest) t) (hn : n ≤ 8#4) :
    ∃ t', step t = .next t' ∧ Midway s (k + 1) (x ++ beat n data) rest t' := by
  have hx : Represents x { t with inbox := rest } := h.represents
  have hexec := (step_sent (by simpa [Instr.wellFormed] using hn) h.inbox).trans (exec_update_ready hn data hx.1)
  refine ⟨_, hexec, updateBytes_wf _ h.wf, hx.updateBytes h.wf _, ?cause, ?inbox, ?outbox⟩
  case cause => rw [respond_cause, updateBytes_cause, h.cause]
  case inbox => rw [respond_inbox, updateBytes_inbox]
  case outbox =>
    rw [respond_outbox, updateBytes_outbox, updateBytes_phase, updateBytes_cause, hx.1, h.cause, h.outbox,
      List.append_assoc, List.replicate_succ']
    rfl

/-- A list of legal UPDATEs adds its beats in order (R66). -/
theorem Midway.run_updates (j : Nat) {beats : List Beat} (hlegal : ∀ b ∈ beats, b.1 ≤ 8#4)
    (h : Midway s k x (sendAll (beats.map fun b => .update b.1 b.2) ++ rest) t) :
    ∃ t', Sys2Proof.core.run (beats.length + j) t = Sys2Proof.core.run j t' ∧
      Midway s (k + beats.length) (x ++ messageOf beats) rest t' := by
  induction beats generalizing k x t with
  | nil => exact ⟨t, by rw [List.length_nil, Nat.zero_add], by simpa [messageOf, sendAll] using h⟩
  | cons b beats ih =>
    obtain ⟨hn, hbeats⟩ := List.forall_mem_cons.1 hlegal
    obtain ⟨u, hstep, hu⟩ := Midway.step_update h hn
    obtain ⟨t', hrun, ht'⟩ := ih hbeats hu
    refine ⟨t', ?_, ?_⟩
    · rw [List.length_cons, Nat.add_right_comm, run_succ _ hstep, hrun]
    · simpa [messageOf, Nat.add_assoc, Nat.add_comm 1] using ht'

/-! ### The digest -/

/-- A context that stands for `x` gives the digest R176 defines, whose fresh context with `x` delivered stands for `x`
too. -/
theorem Represents.digest_eq_sha512 (h : Represents x s) (hwf : s.buf.wf = true) :
    digestBytes (finishHash s).h = sha512 x := by
  have hfresh : Represents x (Machine.updateBytes x (freshContext State.reset)) :=
    (represents_freshContext State.reset).updateBytes rfl x
  rw [h.digest_eq hwf, sha512, hfresh.digest_eq (updateBytes_wf x rfl)]

/-- FINALIZE ends it with the digest of the message and the context zero (R170, R174). -/
theorem Midway.step_finalize (h : Midway s k x (.command (encode .finalize) :: rest) t) :
    ∃ t', step t = .next t' ∧ t'.phase = .finalized ∧ t'.Cleared ∧ t'.inbox = rest ∧
      t'.outbox = s.outbox ++ List.replicate k (readyResponse s.cause) ++
        [{ status := statusWord .finalized s.cause true, digest := sha512 x }] := by
  have hx : Represents x { t with inbox := rest } := h.represents
  refine ⟨_, (step_sent rfl h.inbox).trans (exec_finalize_ready hx.1), rfl, finalizeContext_cleared _, rfl, ?_⟩
  rw [finalizeContext_outbox, hx.digest_eq_sha512 h.wf, h.cause, h.outbox]

/-- The moves of a whole hash, each behind the one before it (R232). -/
theorem sendAll_hashCommands (beats : List Beat) (rest : List HostMove) :
    sendAll (hashCommands beats) ++ rest =
      .command (encode .init) ::
        (sendAll (beats.map fun b => .update b.1 b.2) ++ .command (encode .finalize) :: rest) := by
  simp [hashCommands, sendAll]

/-- Settles O53: INIT makes a context that stands for the empty message, the UPDATEs add the beats, and FINALIZE answers
the digest of what it then stands for. -/
theorem anySplitGivesTheDigest : Obligations.AnySplitGivesTheDigest := by
  intro s beats rest hs hlegal hi
  rw [sendAll_hashCommands] at hi
  obtain ⟨t₁, hinit, h₁⟩ := step_init_midway hs hi
  obtain ⟨t₂, hupdates, h₂⟩ := h₁.run_updates 1 hlegal
  obtain ⟨t₃, hfinal, hphase, hclear, hin, hout⟩ := h₂.step_finalize
  refine ⟨t₃, ?_, hphase, hclear, hin, ?_⟩
  · calc Sys2Proof.core.run (beats.length + 2) s = Sys2Proof.core.run (beats.length + 1) t₁ := run_succ _ hinit
      _ = Sys2Proof.core.run 1 t₂ := hupdates
      _ = .next t₃ := run_succ 0 hfinal
  · rwa [Nat.add_comm 1] at hout

end Sys2Proof.Machine
end

