-- ==== Sys2Proof/Proofs/Encoding.lean ====
section
/-! PROOF. The command word: the decoder, the formula of R75, the list of legal words, the opcode map and the encoder all
say the same (R71 to R76, R79, R80, R83), and an illegal word is rejected. -/

namespace Sys2Proof

/-! ### Fields -/

/-- A command word is determined by its four fields (R71). -/
theorem word_ext {w w' : HalfWord} (hrsv1 : rsv1Field w = rsv1Field w') (hnb : nbField w = nbField w')
    (hrsv0 : rsv0Field w = rsv0Field w') (hop : opField w = opField w') : w = w' :=
  BitVec.eq_of_toNat_eq (by rw [word_toNat w, word_toNat w', hrsv1, hnb, hrsv0, hop])

/-- The formula of R75, field by field. -/
theorem legal_iff {w : HalfWord} :
    legal w = true ↔ rsv1Field w = 0#20 ∧ rsv0Field w = 0#4 ∧
      (opField w = 2#4 ∧ nbField w ≤ 8#4 ∨ (opField w = 0#4 ∨ opField w = 1#4 ∨ opField w = 3#4) ∧ nbField w = 0#4) := by
  simp [legal, and_assoc, or_assoc]

/-! ### Decoder and encoder -/

/-- Settles O1: the decoder reads back what the encoder writes. -/
theorem decodeOfEncode : Obligations.DecodeOfEncode := fun _ => Machine.decode_encode

/-- The encoding of a well-formed instruction is a legal word (R75, R80). -/
theorem legal_encode {i : Instr} (h : i.wellFormed = true) : legal (encode i).cmd = true := by
  cases i with
  | status => exact (Laws.EncodedLegal.status h).1
  | init => exact (Laws.EncodedLegal.init h).1
  | update n data => exact (Laws.EncodedLegal.update n data h).1
  | finalize => exact (Laws.EncodedLegal.finalize h).1

/-- What the decoder answers is well-formed, and the word it read is the one the encoder writes for it (R79, R80). -/
theorem cmd_eq_of_decode {c : Command} {i : Instr} (h : decode c = .ok i) :
    i.wellFormed = true ∧ c.cmd = (encode i).cmd := by
  obtain ⟨hd, -⟩ | ⟨hrsv0, hrsv1, ⟨hop, hnb, hd⟩ | ⟨hop, hnb, hd⟩ | ⟨hop, hnb, hd⟩ | ⟨hop, hnb, hd⟩ | ⟨-, -, hd⟩ |
    ⟨-, -, hd⟩ | ⟨-, hd⟩⟩ := decode_cases c
  all_goals cases hd.symm.trans h
  · exact ⟨rfl, word_ext hrsv1 hnb hrsv0 hop⟩
  · exact ⟨rfl, word_ext hrsv1 hnb hrsv0 hop⟩
  · obtain ⟨hop', hrsv0', hnb', hrsv1'⟩ := updateWord_fields (nbField c.cmd)
    refine ⟨decide_eq_true hnb, word_ext ?_ hnb'.symm ?_ ?_⟩
    · exact hrsv1.trans hrsv1'.symm
    · exact hrsv0.trans hrsv0'.symm
    · exact hop.trans hop'.symm
  · exact ⟨rfl, word_ext hrsv1 hnb hrsv0 hop⟩

/-- The decoder answers an instruction exactly on the legal words (R75, R79). -/
theorem exists_decode_iff_legal (c : Command) : (∃ i, decode c = .ok i) ↔ legal c.cmd = true := by
  constructor
  · rintro ⟨i, hd⟩
    obtain ⟨hwf, hcmd⟩ := cmd_eq_of_decode hd
    rw [hcmd]
    exact legal_encode hwf
  · intro hlegal
    obtain ⟨hrsv1, hrsv0, hform⟩ := legal_iff.1 hlegal
    obtain ⟨-, hreserved⟩ | ⟨-, -, ⟨-, -, hd⟩ | ⟨-, -, hd⟩ | ⟨-, -, hd⟩ | ⟨-, -, hd⟩ | ⟨hop, hnb, -⟩ | ⟨hop, hnb, -⟩ |
      ⟨hop, -⟩⟩ := decode_cases c
    · exact absurd ⟨hrsv0, hrsv1⟩ hreserved
    iterate 4 exact ⟨_, hd⟩
    · simp [hop, hnb] at hform
    · obtain ⟨hop', -⟩ | ⟨-, hnb'⟩ := hform
      · simp [hop'] at hop
      · exact absurd hnb' hnb
    · obtain ⟨hop', -⟩ | ⟨hop' | hop' | hop', -⟩ := hform
      all_goals rw [hop'] at hop; exact absurd hop (by decide)

/-- Settles O2. -/
theorem decodeSucceedsExactlyOnLegalWords : Obligations.DecodeSucceedsExactlyOnLegalWords :=
  fun c => ⟨exists_decode_iff_legal c, fun _ hd => (cmd_eq_of_decode hd).1⟩

/-- The legal words are those the encoder writes. -/
theorem legal_iff_encode {w : HalfWord} : legal w = true ↔ ∃ i : Instr, i.wellFormed = true ∧ w = (encode i).cmd := by
  constructor
  · intro h
    obtain ⟨i, hd⟩ := (exists_decode_iff_legal { cmd := w, data := 0#64 }).2 h
    exact ⟨i, cmd_eq_of_decode hd⟩
  · rintro ⟨i, hwf, rfl⟩
    exact legal_encode hwf

/-- An UPDATE's word as a number (R73, R80). -/
theorem updateWord_eq_ofNat : ∀ n : BitVec 4, updateWord n = BitVec.ofNat 32 (256 * n.toNat + 2) := by decide

/-- Settles O3: the legal words are the encodings of the four commands, which are the words listed. -/
theorem legalWordsAreThoseListed : Obligations.LegalWordsAreThoseListed := by
  intro w
  rw [legal_iff_encode]
  constructor
  · rintro ⟨i, hwf, rfl⟩
    cases i with
    | status => exact .inl rfl
    | init => exact .inr (.inl rfl)
    | update n data => exact .inr (.inr (.inr ⟨n, of_decide_eq_true hwf, updateWord_eq_ofNat n⟩))
    | finalize => exact .inr (.inr (.inl rfl))
  · rintro (rfl | rfl | rfl | ⟨n, hn, rfl⟩)
    · exact ⟨.status, rfl, rfl⟩
    · exact ⟨.init, rfl, rfl⟩
    · exact ⟨.finalize, rfl, rfl⟩
    · exact ⟨.update n 0#64, decide_eq_true hn, (updateWord_eq_ofNat n).symm⟩

/-- Settles O5, by running the decoder on each word. -/
theorem sampleWordsDecode : Obligations.SampleWordsDecode := by
  unfold Obligations.SampleWordsDecode
  decide

/-! ### The opcode map -/

/-- The word of a well-formed instruction selects the row of its mnemonic (R83). -/
theorem encode_selects {i : Instr} (h : i.wellFormed = true) :
    ∃ r ∈ opcodeMap, r.mnemonic = i.mnemonic ∧ r.selects (encode i).cmd = true := by
  have hupdate : ∀ n : BitVec 4, n ≤ 8#4 →
      ∃ r ∈ opcodeMap, r.mnemonic = "UPDATE" ∧ r.selects (updateWord n) = true := by decide
  cases i with
  | status => decide
  | init => decide
  | update n data => exact hupdate n (of_decide_eq_true h)
  | finalize => decide

/-- When a word selects a row: the pattern under the mask, and the row's bound on NB (R83). -/
theorem selects_iff {r : OpcodeRow} {w : HalfWord} :
    r.selects w = true ↔ w &&& r.mask = r.pattern ∧ nbField w ≤ r.maxNb := by simp [OpcodeRow.selects]

/-- A word that selects a row has the pattern's OP and reserved bits, and its NB under the mask (R83). -/
theorem fields_of_selects {r : OpcodeRow} (hr : r ∈ opcodeMap) {w : HalfWord} (h : r.selects w = true) :
    opField w = opField r.pattern ∧ rsv0Field w = rsv0Field r.pattern ∧ rsv1Field w = rsv1Field r.pattern ∧
      nbField w &&& nbField r.mask = nbField r.pattern := by
  have hmask : ∀ r ∈ opcodeMap, opField r.mask = BitVec.allOnes 4 ∧ rsv0Field r.mask = BitVec.allOnes 4 ∧
      rsv1Field r.mask = BitVec.allOnes 20 := by decide
  obtain ⟨hop, hrsv0, hrsv1⟩ := hmask r hr
  obtain ⟨hpattern, -⟩ := selects_iff.1 h
  rw [← hpattern]
  simp only [opField, rsv0Field, rsv1Field, nbField, BitVec.extractLsb'_and] at hop hrsv0 hrsv1 ⊢
  simp only [hop, hrsv0, hrsv1, BitVec.and_allOnes, and_self]

/-- A word that selects a row is legal (R75, R83). -/
theorem legal_of_selects {r : OpcodeRow} (hr : r ∈ opcodeMap) {w : HalfWord} (h : r.selects w = true) :
    legal w = true := by
  obtain ⟨hop, hrsv0, hrsv1, hnb⟩ := fields_of_selects hr h
  obtain ⟨-, hmax⟩ := selects_iff.1 h
  have hrow : ∀ r ∈ opcodeMap, rsv0Field r.pattern = 0#4 ∧ rsv1Field r.pattern = 0#20 ∧
      ∀ nb : BitVec 4, nb &&& nbField r.mask = nbField r.pattern → nb ≤ r.maxNb →
        opField r.pattern = 2#4 ∧ nb ≤ 8#4 ∨
          (opField r.pattern = 0#4 ∨ opField r.pattern = 1#4 ∨ opField r.pattern = 3#4) ∧ nb = 0#4 := by decide
  obtain ⟨hrsv0', hrsv1', hform⟩ := hrow r hr
  rw [legal_iff, hop, hrsv0, hrsv1]
  exact ⟨hrsv1', hrsv0', hform _ hnb hmax⟩

/-- No word selects two rows, because the rows differ in OP (R83). -/
theorem selects_unique {r r' : OpcodeRow} (hr : r ∈ opcodeMap) (hr' : r' ∈ opcodeMap) {w : HalfWord}
    (h : r.selects w = true) (h' : r'.selects w = true) : r = r' := by
  have hdistinct : ∀ r ∈ opcodeMap, ∀ r' ∈ opcodeMap, opField r.pattern = opField r'.pattern → r = r' := by decide
  exact hdistinct r hr r' hr' ((fields_of_selects hr h).1.symm.trans (fields_of_selects hr' h').1)

/-- Settles O4: a decoded word is an encoding, which selects its row; a word that selects a row is legal, so the decoder
does not reject it. -/
theorem opcodeMapDecides : Obligations.OpcodeMapDecides := by
  refine ⟨fun c i hd => ?decoded, fun c e hd r hr => ?rejected, fun w r hr r' hr' => selects_unique hr hr'⟩
  case decoded =>
    obtain ⟨hwf, hcmd⟩ := cmd_eq_of_decode hd
    rw [hcmd]
    exact encode_selects hwf
  case rejected =>
    refine Bool.eq_false_iff.2 fun hsel => ?_
    obtain ⟨i, hok⟩ := (exists_decode_iff_legal c).2 (legal_of_selects hr hsel)
    cases hd.symm.trans hok

end Sys2Proof

namespace Sys2Proof.Machine

/-! ### Illegal words in the step -/

/-- The step rejects an illegal word (R76). -/
theorem step_of_not_legal {s : State} {c : Command} {rest : List HostMove} (hi : s.inbox = .command c :: rest)
    (hc : legal c.cmd = false) : step s = .next (rejectIllegal { s with inbox := rest }) := by
  cases hd : decode c with
  | ok i => exact absurd ((exists_decode_iff_legal c).1 ⟨i, hd⟩) (by simp [hc])
  | error e => exact step_illegal hi hd

/-- Settles O8: fault entry outside FAULT, refusal in it. -/
theorem illegalWordIsRejected : Obligations.IllegalWordIsRejected := by
  intro s c rest hi hc
  rw [step_of_not_legal hi hc]
  constructor
  · intro hs
    rw [rejectIllegal_live (s := { s with inbox := rest }) hs, ← statusWord_illegalCmd]
    rfl
  · intro hs
    rw [rejectIllegal_fault (s := { s with inbox := rest }) hs, ← hs]
    rfl

end Sys2Proof.Machine
end

