-- ==== Sys2Proof/Proofs/BeatLanes.lean ====
section
/-! PROOF. The beat of an UPDATE is its first NB lanes of DATA, and nothing else of DATA is read (R74). -/

namespace Sys2Proof.Machine

/-- The beat of a legal UPDATE, lane by lane (R74). -/
theorem beat_eq_map {n : BitVec 4} (h : n ≤ 8#4) (data : Word) :
    beat n data = (List.range n.toNat).map (wordByte data) := by
  have hn : n.toNat ≤ 8 := h
  rw [beat, enc64, ← List.map_take, List.take_range, Nat.min_eq_left hn]

/-- DATA words that agree in the used lanes give the same beat (R74). -/
theorem beat_congr {n : BitVec 4} (h : n ≤ 8#4) {data data' : Word}
    (hlanes : ∀ k, k < n.toNat → wordByte data k = wordByte data' k) : beat n data = beat n data' := by
  rw [beat_eq_map h, beat_eq_map h]
  exact List.map_congr_left fun k hk => hlanes k (List.mem_range.1 hk)

/-- Only an UPDATE's DATA is decoded (R74). -/
theorem decode_data_irrelevant {w : HalfWord} (h : opField w ≠ 2#4) (data data' : Word) :
    decode { cmd := w, data := data } = decode { cmd := w, data := data' } := by
  simp only [decode, if_neg h]

/-- Settles O6. -/
theorem beatIsTheUsedLanes : Obligations.BeatIsTheUsedLanes := by
  refine ⟨fun n data hn => ⟨length_beat hn data, fun k hk => ?lane⟩, fun n data data' s hn hlanes => ?unused,
    fun w data data' hop => decode_data_irrelevant hop data data', ?abc, ?abcFilled⟩
  case lane => rw [beat_eq_map hn, List.getElem?_map, List.getElem?_range hk, Option.map_some, wordByte]
  case unused => rw [exec_update_legal hn, exec_update_legal hn, beat_congr hn hlanes]
  case abc => decide
  case abcFilled => decide

end Sys2Proof.Machine
end

