-- ==== Sys2Proof/Proofs/DigestRelease.lean ====
section
/-! PROOF. A digest leaves the engine only in the response to a FINALIZE in READY (R78, R236). -/

namespace Sys2Proof.Machine

/-- Every instruction but a FINALIZE in READY answers 64 zero bytes (R78). -/
theorem exec_digest {i : Instr} {s t : State} (h : exec i s = .next t) :
    (i = .finalize ∧ s.phase = .ready) ∨ ∃ w, t.outbox = s.outbox ++ [{ status := w, digest := zeros 64 }] := by
  obtain ⟨-, -, rfl⟩ | ⟨-, c, rfl⟩ | ⟨-, rfl⟩ | ⟨-, -, rfl⟩ | ⟨n, d, -, -, -, rfl⟩ | ⟨hi, hs, rfl⟩ := exec_cases h
  · exact .inr ⟨_, refuse_outbox s⟩
  · exact .inr ⟨_, raiseFault_outbox c s⟩
  · exact .inr ⟨_, respond_outbox _ _ s⟩
  · exact .inr ⟨_, respond_outbox _ _ (freshContext s)⟩
  · exact .inr ⟨_, by rw [respond_outbox, updateBytes_outbox]⟩
  · exact .inl ⟨hi, hs⟩

/-- A step that runs no FINALIZE in READY adds no response, or one with 64 zero bytes (R78). -/
theorem step_digest {s t : State} (h : step s = .next t) :
    (s.phase = .ready ∧ ∃ c rest, s.inbox = .command c :: rest ∧ decode c = .ok .finalize) ∨
      t.outbox = s.outbox ∨ ∃ w, t.outbox = s.outbox ++ [{ status := w, digest := zeros 64 }] := by
  obtain ⟨-, rfl⟩ | ⟨cut, rest, -, rfl⟩ | ⟨c, rest, e, -, -, rfl⟩ | ⟨c, rest, i, hi, hd, he⟩ := step_cases h
  · exact .inr (.inl rfl)
  · exact .inr (.inl rfl)
  · obtain ⟨hfinalize, -⟩ | hzero := exec_digest (exec_of_illegal { s with inbox := rest })
    · cases hfinalize
    · exact .inr (.inr hzero)
  · obtain ⟨rfl, hs⟩ | hzero := exec_digest he
    · exact .inl ⟨hs, c, rest, hi, hd⟩
    · exact .inr (.inr hzero)

/-- Settles O32: any other step adds no response, or one whose digest is zero. -/
theorem digestLeavesOnlyByFinalize : Obligations.DigestLeavesOnlyByFinalize := by
  intro s t hstep r hr hdigest
  obtain hfinalize | hnone | ⟨w, hzero⟩ := step_digest hstep
  · exact hfinalize
  · simp [hnone] at hr
  · obtain rfl : r = { status := w, digest := zeros 64 } := by simpa using hr.symm.trans hzero
    exact absurd rfl hdigest

end Sys2Proof.Machine
end

