-- ==== Sys2Proof/Proofs/PseudoCommands.lean ====
section
/-! PROOF. The pseudo-commands of the assembler: `UPDATE_BYTES x` delivers `x` (R81), and `HASH x` answers its digest
(R82). -/

namespace Sys2Proof.Machine

/-! ### The pieces of a byte string -/

/-- `Enc64` reads back eight bytes from their `Dec64` (R101, R102). -/
theorem enc64_dec64 {b : List Byte} (h : b.length = 8) : enc64 (dec64 b) = b := by
  refine List.ext_getElem (by simp [h]) fun k hk hk' => ?_
  rw [← List.getD_eq_getElem _ 0#8 hk, ← List.getD_eq_getElem _ 0#8 hk', getD_enc64 _ (h ▸ hk'),
    wordByte_dec64 _ (h ▸ hk')]

/-- The beat that carries a piece of at most eight bytes, filled up with zero bytes (R81). -/
def pieceBeat (piece : List Byte) : Beat :=
  (BitVec.ofNat 4 piece.length, dec64 (piece ++ zeros (8 - piece.length)))

/-- The byte count of a piece fits NB. -/
theorem pieceBeat_count {piece : List Byte} (h : piece.length ≤ 8) : (pieceBeat piece).1.toNat = piece.length := by
  rw [pieceBeat, BitVec.toNat_ofNat, Nat.mod_eq_of_lt (by omega)]

/-- A piece of at most eight bytes is what its beat delivers (R74, R81). -/
theorem beat_pieceBeat {piece : List Byte} (h : piece.length ≤ 8) :
    beat (pieceBeat piece).1 (pieceBeat piece).2 = piece := by
  have hfilled : (piece ++ zeros (8 - piece.length)).length = 8 := by
    rw [List.length_append, length_zeros]
    omega
  rw [beat, pieceBeat_count h, pieceBeat, enc64_dec64 hfilled, List.take_left]

/-- The `j`-th piece of a byte string: eight bytes from `8 j` on, or as many as there are (R81). -/
def bytePiece (x : List Byte) (j : Nat) : List Byte := (x.drop (8 * j)).take 8

theorem length_bytePiece (x : List Byte) (j : Nat) : (bytePiece x j).length = min 8 (x.length - 8 * j) := by
  simp [bytePiece]

/-- The first `k` pieces make up the first `8 k` bytes. -/
theorem flatMap_bytePiece (x : List Byte) (k : Nat) : (List.range k).flatMap (bytePiece x) = x.take (8 * k) := by
  induction k with
  | zero => simp
  | succ k ih =>
    rw [List.range_succ, List.flatMap_append, ih, List.flatMap_singleton, bytePiece, Nat.mul_succ, List.take_add]

/-! ### UPDATE_BYTES -/

/-- The beats of `UPDATE_BYTES x`, one for each piece (R81). -/
def updateBytesBeats (x : List Byte) : List Beat :=
  (List.range ((x.length + 7) / 8)).map fun j => pieceBeat (bytePiece x j)

theorem length_updateBytesBeats (x : List Byte) : (updateBytesBeats x).length = (x.length + 7) / 8 := by
  simp [updateBytesBeats]

theorem updateBytesExpansion_eq_map (x : List Byte) :
    updateBytesExpansion x = (updateBytesBeats x).map fun b => .update b.1 b.2 := by
  rw [updateBytesBeats, List.map_map]
  rfl

theorem updateBytesBeats_legal (x : List Byte) : ∀ b ∈ updateBytesBeats x, b.1 ≤ 8#4 := by
  refine List.forall_mem_map.2 fun j _ => ?_
  have hpiece : (bytePiece x j).length ≤ 8 := by rw [length_bytePiece]; omega
  exact BitVec.le_def.2 (by rwa [pieceBeat_count hpiece])

/-- The beats of `UPDATE_BYTES x` deliver `x` (R81). -/
theorem messageOf_updateBytesBeats (x : List Byte) : messageOf (updateBytesBeats x) = x := by
  have hpiece : ∀ j, beat (pieceBeat (bytePiece x j)).1 (pieceBeat (bytePiece x j)).2 = bytePiece x j := fun j =>
    beat_pieceBeat (by rw [length_bytePiece]; omega)
  calc messageOf (updateBytesBeats x) = (List.range ((x.length + 7) / 8)).flatMap (bytePiece x) := by
        simp only [messageOf, updateBytesBeats, List.flatMap_map, hpiece]
    _ = x := by rw [flatMap_bytePiece, List.take_of_length_le (by omega)]

/-- Settles O54: the expansion sends one beat for each piece, and the pieces make up `x`. -/
theorem updateBytesExpansionDelivers : Obligations.UpdateBytesExpansionDelivers := by
  intro x
  refine ⟨?count, fun j hj => ?operands, updateBytesBeats x, updateBytesExpansion_eq_map x, updateBytesBeats_legal x,
    messageOf_updateBytesBeats x⟩
  case count => rw [updateBytesExpansion_eq_map, List.length_map, length_updateBytesBeats]
  case operands =>
    rw [updateBytesExpansion, List.getElem?_map, List.getElem?_range hj, Option.map_some, ← length_bytePiece]
    rfl

/-! ### HASH -/

/-- `HASH x` is a hash of the beats of `UPDATE_BYTES x` (R82). -/
theorem hashExpansion_eq (x : List Byte) : hashExpansion x = hashCommands (updateBytesBeats x) := by
  rw [hashExpansion, hashCommands, updateBytesExpansion_eq_map]

theorem length_hashCommands (beats : List Beat) : (hashCommands beats).length = beats.length + 2 := by
  simp [hashCommands]

/-- Settles O55: the beats of `UPDATE_BYTES x` are one split of `x`, and every split gives the digest. -/
theorem hashReturnsTheDigest : Obligations.HashReturnsTheDigest := by
  intro s x rest
  refine ⟨rfl, fun hs hi => ?_⟩
  rw [hashExpansion_eq] at hi ⊢
  obtain ⟨t, hrun, -, -, -, hout⟩ := anySplitGivesTheDigest s (updateBytesBeats x) rest hs (updateBytesBeats_legal x) hi
  rw [messageOf_updateBytesBeats] at hout
  exact ⟨t, _, by rw [length_hashCommands, hrun], hout⟩

end Sys2Proof.Machine
end

