-- ==== Sys2Proof/Proofs/Codec.lean ====
section
/-! PROOF. The byte-order codec: bytes and weights (R101, R102, R104, R105) and the round-trip laws (R103, R106). Both
widths follow from the facts about one big-endian number of `n` bytes. -/

namespace Sys2Proof.Machine

/-! ### Big-endian numbers -/

/-- The first `n` bytes of `b` by their big-endian weights, as an exact sum: what R102 writes for `n = 8` and R105 for
`n = 4`. -/
def byteSum (n : Nat) (b : List Byte) : Nat :=
  ((List.range n).map fun k => (b.getD k 0#8).toNat * 2 ^ (8 * (n - 1) - 8 * k)).sum

/-- One more byte moves the others up one place. -/
theorem byteSum_succ (n : Nat) (b : List Byte) : byteSum (n + 1) b = byteSum n b * 256 + (b.getD n 0#8).toNat := by
  have hterm : ∀ k ∈ List.range n, (b.getD k 0#8).toNat * 2 ^ (8 * n - 8 * k) =
      (b.getD k 0#8).toNat * 2 ^ (8 * (n - 1) - 8 * k) * 256 := by
    intro k hk
    have hk := List.mem_range.mp hk
    rw [Nat.mul_assoc, show 8 * n - 8 * k = 8 * (n - 1) - 8 * k + 8 by omega, Nat.pow_add]
  simp only [byteSum, Nat.add_sub_cancel, List.range_succ, List.map_append, List.sum_append, List.map_congr_left hterm,
    List.sum_map_mul_right]
  simp

theorem byteSum_lt (n : Nat) (b : List Byte) : byteSum n b < 2 ^ (8 * n) := by
  induction n with
  | zero => simp [byteSum]
  | succ n ih =>
    have hb := (b.getD n 0#8).isLt
    rw [byteSum_succ, Nat.mul_succ 8, Nat.pow_add]
    omega

/-- Each byte can be read back from the sum. -/
theorem byteSum_div_mod (n : Nat) (b : List Byte) {k : Nat} (hk : k < n) :
    byteSum n b / 2 ^ (8 * (n - 1) - 8 * k) % 256 = (b.getD k 0#8).toNat := by
  induction n with
  | zero => exact absurd hk (Nat.not_lt_zero k)
  | succ n ih =>
    have hb := (b.getD n 0#8).isLt
    rw [byteSum_succ, Nat.add_sub_cancel]
    obtain hlt | rfl := Nat.lt_succ_iff_lt_or_eq.mp hk
    · have hup : (byteSum n b * 256 + (b.getD n 0#8).toNat) / 2 ^ 8 = byteSum n b := by omega
      rw [show 8 * n - 8 * k = 8 + (8 * (n - 1) - 8 * k) by omega, Nat.pow_add, ← Nat.div_div_eq_div_mul, hup, ih hlt]
    · rw [Nat.sub_self, Nat.pow_zero, Nat.div_one]
      omega

/-- The bytes of a number add up to it. -/
theorem byteSum_eq_mod {n x : Nat} {b : List Byte}
    (h : ∀ k, k < n → (b.getD k 0#8).toNat = x / 2 ^ (8 * (n - 1) - 8 * k) % 256) : byteSum n b = x % 2 ^ (8 * n) := by
  induction n generalizing x with
  | zero => simp [byteSum, Nat.mod_one]
  | succ n ih =>
    have hhigh : byteSum n b = x / 2 ^ 8 % 2 ^ (8 * n) := ih fun k hk => by
      rw [h k (by omega), Nat.div_div_eq_div_mul, ← Nat.pow_add]
      congr 3
      omega
    have hlow : (b.getD n 0#8).toNat = x % 2 ^ 8 := by simpa using h n (Nat.lt_succ_self n)
    rw [byteSum_succ, hhigh, hlow, Nat.mul_succ 8, Nat.add_comm (8 * n), Nat.pow_add, Nat.mod_mul]
    omega

/-! ### The 64-bit codec -/

theorem getElem?_enc64 (v : Word) {k : Nat} (hk : k < 8) : (enc64 v)[k]? = some (wordByte v k) := by
  rw [enc64, List.getElem?_map, List.getElem?_range hk, Option.map_some]

/-- `Dec64` does not overflow: its sum is exact (R102). -/
theorem dec64_toNat (b : List Byte) : (dec64 b).toNat = byteSum 8 b := by
  have hterms := List.map_congr_left fun k hk => dec64Term_toNat b (List.mem_range.mp hk)
  rw [dec64, sum_toNat, hterms]
  exact Nat.mod_eq_of_lt (byteSum_lt 8 b)

/-- `Dec64` reads back a word from its `Enc64` (R103). -/
theorem dec64_enc64 (x : Word) : dec64 (enc64 x) = x := by
  have hbytes : byteSum 8 (enc64 x) = x.toNat % 2 ^ 64 := byteSum_eq_mod fun k hk => by
    rw [getD_enc64 x hk, wordByte, extractByte_toNat]
  apply BitVec.eq_of_toNat_eq
  rw [dec64_toNat, hbytes, Nat.mod_eq_of_lt x.isLt]

/-- Settles O39: the sum of R102 is below `2^64`, so it is exact; the examples by evaluation. -/
theorem codecBytesAndWeights : Obligations.CodecBytesAndWeights :=
  ⟨fun v => ⟨length_enc64 v, fun _ hk => getElem?_enc64 v hk⟩, fun b _ => dec64_toNat b,
    by decide, by decide, by decide, by decide⟩

/-- Settles O40: the bytes of a word add up to it, and each byte of a list is a digit of its sum. -/
theorem codec64RoundTrip : Obligations.Codec64RoundTrip :=
  ⟨dec64_enc64, fun _ => enc64_dec64⟩

/-! ### The 32-bit codec -/

@[simp] theorem length_enc32 (v : HalfWord) : (enc32 v).length = 4 := by simp [enc32]

theorem getElem?_enc32 (v : HalfWord) {k : Nat} (hk : k < 4) : (enc32 v)[k]? = some (halfWordByte v k) := by
  rw [enc32, List.getElem?_map, List.getElem?_range hk, Option.map_some]

/-- A byte of `Enc32` (R104). -/
theorem getD_enc32 (v : HalfWord) {k : Nat} (hk : k < 4) : (enc32 v).getD k 0#8 = halfWordByte v k := by
  rw [List.getD_eq_getElem?_getD, getElem?_enc32 v hk, Option.getD_some]

/-- `Dec32` does not overflow: its sum is exact (R105). -/
theorem dec32_toNat (b : List Byte) : (dec32 b).toNat = byteSum 4 b := by
  have hterms := List.map_congr_left fun k hk => dec32Term_toNat b (List.mem_range.mp hk)
  rw [dec32, sum_toNat, hterms]
  exact Nat.mod_eq_of_lt (byteSum_lt 4 b)

/-- `Dec32` reads back a half word from its `Enc32` (R106). -/
theorem dec32_enc32 (x : HalfWord) : dec32 (enc32 x) = x := by
  have hbytes : byteSum 4 (enc32 x) = x.toNat % 2 ^ 32 := byteSum_eq_mod fun k hk => by
    rw [getD_enc32 x hk, halfWordByte, extractByte_toNat]
  apply BitVec.eq_of_toNat_eq
  rw [dec32_toNat, hbytes, Nat.mod_eq_of_lt x.isLt]

/-- Byte `k` of the half word that `Dec32` reads is byte `k` of the list (R104, R105). -/
theorem halfWordByte_dec32 (b : List Byte) {k : Nat} (hk : k < 4) : halfWordByte (dec32 b) k = b.getD k 0#8 := by
  apply BitVec.eq_of_toNat_eq
  rw [halfWordByte, extractByte_toNat, dec32_toNat]
  exact byteSum_div_mod 4 b hk

/-- `Enc32` reads back four bytes from their `Dec32` (R106). -/
theorem enc32_dec32 {b : List Byte} (h : b.length = 4) : enc32 (dec32 b) = b := by
  refine List.ext_getElem (by simp [h]) fun k hk hk' => ?_
  have hk4 : k < 4 := h ▸ hk'
  rw [← List.getD_eq_getElem _ 0#8 hk, ← List.getD_eq_getElem _ 0#8 hk', getD_enc32 _ hk4, halfWordByte_dec32 b hk4]

/-- Settles O41: the sum of R105 is below `2^32`, so it is exact; the examples by evaluation. -/
theorem codec32RoundTrip : Obligations.Codec32RoundTrip :=
  ⟨fun v => ⟨length_enc32 v, fun _ hk => getElem?_enc32 v hk⟩, fun b _ => dec32_toNat b,
    by decide, by decide, dec32_enc32, fun _ => enc32_dec32⟩

end Sys2Proof.Machine
end

