-- ==== Sys2Proof/Proofs/Rounds.lean ====
section
/-! PROOF. The block compressor: `Ch` and `Maj` bit by bit (R125, R126), the message schedule (R127, R128), the rounds
(R133 to R137), and the rolling window (R138). -/

namespace Sys2Proof.Machine

/-! ### Ch and Maj -/

theorem getLsbD_ch (e f g : Word) {i : Nat} (hi : i < 64) :
    (ch e f g).getLsbD i = if e.getLsbD i then f.getLsbD i else g.getLsbD i := by
  simp only [ch, BitVec.getLsbD_xor, BitVec.getLsbD_and, BitVec.getLsbD_not, hi, decide_true]
  cases e.getLsbD i <;> simp

theorem getLsbD_maj (a b c : Word) (i : Nat) :
    (maj a b c).getLsbD i = decide (2 ≤ (a.getLsbD i).toNat + (b.getLsbD i).toNat + (c.getLsbD i).toNat) := by
  simp only [maj, BitVec.getLsbD_xor, BitVec.getLsbD_and]
  cases a.getLsbD i <;> cases b.getLsbD i <;> cases c.getLsbD i <;> rfl

/-- Settles O44: the corner cases are the bit equations at a constant choice and at two equal votes. -/
theorem chooseAndMajority : Obligations.ChooseAndMajority := by
  refine ⟨fun e f g i hi => getLsbD_ch e f g hi, fun a b c i _ => getLsbD_maj a b c i, fun f g => ⟨?zeros, ?ones⟩,
    fun x y => ?twice, by decide, by decide⟩
  case zeros =>
    refine BitVec.eq_of_getLsbD_eq fun i hi => ?_
    rw [getLsbD_ch _ _ _ hi, BitVec.getLsbD_zero, if_neg Bool.false_ne_true]
  case ones =>
    refine BitVec.eq_of_getLsbD_eq fun i hi => ?_
    rw [getLsbD_ch _ _ _ hi, BitVec.getLsbD_allOnes, decide_eq_true hi, if_pos rfl]
  case twice => rw [maj, BitVec.and_self, BitVec.xor_assoc, BitVec.xor_self, BitVec.xor_zero]

/-! ### The message schedule -/

theorem length_extendSchedule (k : Nat) (ws : List Word) : (extendSchedule k ws).length = k + ws.length := by
  obtain ⟨newer, h, hl⟩ := extendSchedule_front k ws
  rw [h, List.length_append, hl]

/-- The last word made comes from all the words before it. -/
theorem extendSchedule_succ (k : Nat) (ws : List Word) :
    extendSchedule (k + 1) ws = nextScheduleWord (extendSchedule k ws) :: extendSchedule k ws :=
  extendSchedule_add k 1 ws

/-- The 16 words of the block (R127), newest first. -/
def blockWords (m : List Byte) : List Word := ((List.range 16).map (blockWord m)).reverse

theorem schedule_eq_extend (m : List Byte) : schedule m = (extendSchedule 64 (blockWords m)).reverse := rfl

theorem length_blockWords (m : List Byte) : (blockWords m).length = 16 := by simp [blockWords]

theorem length_schedule (m : List Byte) : (schedule m).length = 80 := by
  rw [schedule_eq_extend, List.length_reverse, length_extendSchedule, length_blockWords]

/-- The schedule begins with the words of the block. -/
theorem schedule_eq_block_append (m : List Byte) :
    ∃ later, schedule m = (List.range 16).map (blockWord m) ++ later := by
  obtain ⟨newer, h, -⟩ := extendSchedule_front 64 (blockWords m)
  exact ⟨newer.reverse, by rw [schedule_eq_extend, h, List.reverse_append, blockWords, List.reverse_reverse]⟩

theorem schedule_getD_block (m : List Byte) {t : Nat} (ht : t < 16) : (schedule m).getD t 0#64 = blockWord m t := by
  obtain ⟨later, h⟩ := schedule_eq_block_append m
  rw [h, List.getD_append _ _ _ _ (by simpa), List.getD_eq_getElem _ _ (by simpa), List.getElem_map, List.getElem_range]

/-- From word 16 on each word follows from the words before it, here newest first. -/
theorem schedule_split (m : List Byte) {t : Nat} (hlo : 16 ≤ t) (hhi : t < 80) :
    ∃ before later, before.length = t ∧ schedule m = before.reverse ++ nextScheduleWord before :: later := by
  obtain ⟨newer, h, -⟩ := extendSchedule_front (79 - t) (extendSchedule (t - 16 + 1) (blockWords m))
  refine ⟨extendSchedule (t - 16) (blockWords m), newer.reverse, ?_, ?_⟩
  · rw [length_extendSchedule, length_blockWords, Nat.sub_add_cancel hlo]
  · rw [schedule_eq_extend, show 64 = t - 16 + 1 + (79 - t) by omega, extendSchedule_add, h, extendSchedule_succ]
    simp

/-- Entry `j` of a list kept newest first stands `j + 1` places before the end of the list in order. -/
theorem getD_reverse_append {α : Type} (l rest : List α) {j : Nat} (hj : j < l.length) (d : α) :
    (l.reverse ++ rest).getD (l.length - (j + 1)) d = l.getD j d := by
  rw [List.getD_append _ _ _ _ (by rw [List.length_reverse]; omega), List.getD_reverse _ (by omega)]
  congr 1
  omega

theorem schedule_getD_recurrence (m : List Byte) {t : Nat} (hlo : 16 ≤ t) (hhi : t < 80) :
    (schedule m).getD t 0#64 =
      smallSigma1 ((schedule m).getD (t - 2) 0#64) + (schedule m).getD (t - 7) 0#64 +
        smallSigma0 ((schedule m).getD (t - 15) 0#64) + (schedule m).getD (t - 16) 0#64 := by
  obtain ⟨before, later, rfl, h⟩ := schedule_split m hlo hhi
  have hnext : (schedule m).getD before.length 0#64 = nextScheduleWord before := by
    rw [h, List.getD_append_right _ _ _ _ (by simp), List.length_reverse, Nat.sub_self, List.getD_cons_zero]
  have hback : ∀ j < 16, (schedule m).getD (before.length - (j + 1)) 0#64 = before.getD j 0#64 := fun j hj => by
    rw [h, getD_reverse_append _ _ (Nat.lt_of_lt_of_le hj hlo)]
  rw [hnext, nextScheduleWord, hback 1 (by decide), hback 6 (by decide), hback 14 (by decide), hback 15 (by decide)]

/-- Settles O45: the recurrence from the split of the schedule at word `t`; the two given blocks by evaluation. -/
theorem scheduleFollowsRecurrence : Obligations.ScheduleFollowsRecurrence := by
  refine ⟨fun m => ⟨length_schedule m, fun t ht => schedule_getD_block m ht, fun t hlo hhi => ?_⟩, ?zero, ?abc⟩
  · exact schedule_getD_recurrence m hlo hhi
  case zero => decide +kernel
  case abc => decide +kernel

/-! ### The rounds -/

/-- Settles O46: both sides are the same registers; the example by evaluation. -/
theorem roundEquations : Obligations.RoundEquations := ⟨fun _ _ _ => rfl, by decide⟩

@[simp] theorem runRounds_nil (ws : List Word) (r : Work) : runRounds [] ws r = r := rfl

@[simp] theorem runRounds_cons (k w : Word) (ks ws : List Word) (r : Work) :
    runRounds (k :: ks) (w :: ws) r = runRounds ks ws (oneRound k w r) := rfl

/-- Words past the last constant are not read. -/
theorem runRounds_append {ks ws : List Word} (h : ks.length = ws.length) (more : List Word) (r : Work) :
    runRounds ks (ws ++ more) r = runRounds ks ws r := by
  have hzip : ks.zip (ws ++ more) = ks.zip ws := by simpa using List.zip_append (r₁ := []) (r₂ := more) h
  rw [runRounds, hzip, runRounds]

/-- Registers that move by one round at each place are where the rounds end (R134). -/
theorem runRounds_eq_of_rounds {ks : List Word} : ∀ {ws : List Word} {rs : Nat → Work}, ks.length = ws.length →
    (∀ t, t < ks.length → rs (t + 1) = oneRound (ks.getD t 0#64) (ws.getD t 0#64) (rs t)) →
      runRounds ks ws (rs 0) = rs ks.length := by
  induction ks with
  | nil => exact fun _ _ => rfl
  | cons k ks ih =>
    intro ws rs hlen hround
    cases ws with
    | nil => cases hlen
    | cons w ws =>
      have hfirst : rs 1 = oneRound k w (rs 0) := hround 0 (Nat.succ_pos _)
      rw [runRounds_cons, ← hfirst, List.length_cons]
      exact ih (rs := fun t => rs (t + 1)) (Nat.succ.inj hlen) fun t ht => hround (t + 1) (Nat.succ_lt_succ ht)

/-- Settles O47: the given registers are those of the 80 rounds of `compress`. -/
theorem compressRunsEightyRounds : Obligations.CompressRunsEightyRounds := by
  intro hin m rs hload hround
  have hrun : runRounds roundConstants (schedule m) (rs 0) = rs 80 :=
    runRounds_eq_of_rounds (ks := roundConstants) (length_schedule m).symm hround
  rw [compress, loadWork, ← hload, hrun]
  rfl

/-! ### The rolling window -/

/-- A window of 16 words stands for all the words that extend it: each round drops the oldest, which no later word
reads (R138). -/
theorem rollRounds_eq_runRounds (ks : List Word) : ∀ (window : List Word) (r : Work), window.length = 16 →
    rollRounds ks window r = runRounds ks (extendSchedule ks.length window.reverse).reverse r := by
  induction ks with
  | nil => exact fun _ _ _ => rfl
  | cons k ks ih =>
    intro window r hlen
    cases window with
    | nil => cases hlen
    | cons w rest =>
      have hextend : extendSchedule (k :: ks).length (w :: rest).reverse =
          extendSchedule ks.length (rest ++ [nextScheduleWord (w :: rest).reverse]).reverse ++ [w] := by
        rw [List.length_cons, extendSchedule, ← extendSchedule_append _ _ _ (by simpa using hlen.ge)]
        simp
      rw [rollRounds, hextend, List.reverse_append, ih _ _ (by simpa using hlen)]
      rfl

/-- Settles O48: the window makes the 80 schedule words and 16 more, which no round reads. -/
theorem rollingWindowCompresses : Obligations.RollingWindowCompresses := by
  intro hin m
  obtain ⟨newer, hnewer, -⟩ := extendSchedule_front 16 (extendSchedule 64 (blockWords m))
  have hwords : (extendSchedule roundConstants.length (blockWords m)).reverse = schedule m ++ newer.reverse := by
    rw [length_roundConstants, extendSchedule_add 64 16, hnewer, List.reverse_append, schedule_eq_extend]
  have hlength : roundConstants.length = (schedule m).length := by rw [length_roundConstants, length_schedule]
  rw [compressRolling, compress, rollRounds_eq_runRounds _ _ _ (by simp), ← blockWords, hwords,
    runRounds_append hlength]

end Sys2Proof.Machine
end

