-- ==== Sys2Proof/Proofs/RootTables.lean ====
section
/-! PROOF. The constant tables by their defining property (R130 to R132): the fractional parts of roots of primes. -/

namespace Sys2Proof.Machine

/-! ### The first primes -/

/-- The numbers below `n` with a property are its first ones, in order. -/
theorem filter_range_eq_map_nth (p : Nat → Prop) [DecidablePred p] (n : Nat) :
    (List.range n).filter p = (List.range (Nat.count p n)).map (Nat.nth p) := by
  induction n with
  | zero => rfl
  | succ n ih =>
    rw [List.range_succ, List.filter_append, ih, Nat.count_succ]
    by_cases h : p n
    · simp [h, List.range_succ, Nat.nth_count h]
    · simp [h]

/-- The first 80 primes. -/
def firstPrimes : List Nat :=
  [2, 3, 5, 7, 11, 13, 17, 19, 23, 29, 31, 37, 41, 43, 47, 53, 59, 61, 67, 71, 73, 79, 83, 89, 97, 101, 103,
    107, 109, 113, 127, 131, 137, 139, 149, 151, 157, 163, 167, 173, 179, 181, 191, 193, 197, 199, 211, 223,
    227, 229, 233, 239, 241, 251, 257, 263, 269, 271, 277, 281, 283, 293, 307, 311, 313, 317, 331, 337, 347,
    349, 353, 359, 367, 373, 379, 383, 389, 397, 401, 409]

/-- Trial division by the numbers below 21. -/
def trialDivision (n : Nat) : Bool := decide (2 ≤ n ∧ ∀ m : Nat, m < 21 → ¬(2 ≤ m ∧ m < n ∧ m ∣ n))

/-- A composite number below `21^2` has a divisor below 21. -/
theorem decide_prime_eq_trialDivision {n : Nat} (hn : n < 21 * 21) : decide n.Prime = trialDivision n := by
  refine decide_eq_decide.2 ⟨fun hp => ⟨hp.two_le, ?_⟩, fun ⟨h2, hdiv⟩ => ?_⟩
  · exact fun m _ ⟨hm, hlt, hdvd⟩ => (Nat.prime_def_lt'.1 hp).2 m hm hlt hdvd
  · refine Nat.prime_def_le_sqrt.2 ⟨h2, fun m hm hsqrt hdvd => ?_⟩
    exact hdiv m (hsqrt.trans_lt (Nat.sqrt_lt.2 hn)) ⟨hm, hsqrt.trans_lt (Nat.sqrt_lt_self h2), hdvd⟩

theorem filter_prime_eq_firstPrimes : (List.range 410).filter Nat.Prime = firstPrimes := by
  have hsmall : ∀ n ∈ List.range 410, n < 21 * 21 := fun n hn => (List.mem_range.1 hn).trans (by decide)
  calc (List.range 410).filter Nat.Prime = (List.range 410).filter trialDivision :=
        List.filter_congr fun n hn => decide_prime_eq_trialDivision (hsmall n hn)
    _ = firstPrimes := by decide +kernel

theorem nth_prime_eq_firstPrimes {t : Nat} (ht : t < 80) : Nat.nth Nat.Prime t = firstPrimes.getD t 0 := by
  have hmap := (filter_range_eq_map_nth Nat.Prime 410).symm.trans filter_prime_eq_firstPrimes
  have hcount : Nat.count Nat.Prime 410 = 80 := by simpa [firstPrimes] using congrArg List.length hmap
  rw [← hmap, hcount, List.getD_eq_getElem _ _ (by simpa), List.getElem_map, List.getElem_range]

/-! ### Roots with 64 fractional bits -/

/-- The number whose whole part is that of the `k`-th root of `p` and whose 64 fractional bits are the word `w`, times
`2^64`. -/
def scaledRoot (k p : Nat) (w : Word) : Nat := Nat.nthRoot k p * 2 ^ 64 + w.toNat

theorem scaledRoot_mod (k p : Nat) (w : Word) : scaledRoot k p w % 2 ^ 64 = w.toNat := by
  rw [scaledRoot, Nat.mul_add_mod_self_right, Nat.mod_eq_of_lt w.isLt]

theorem roundConstants_cube_bounds : ∀ t < 80,
    let root := scaledRoot 3 (firstPrimes.getD t 0) (roundConstants.getD t 0#64)
    root ^ 3 ≤ firstPrimes.getD t 0 * 2 ^ 192 ∧ firstPrimes.getD t 0 * 2 ^ 192 < (root + 1) ^ 3 := by decide +kernel

theorem iv_square_bounds : ∀ i : Fin 8,
    let root := scaledRoot 2 (firstPrimes.getD i.val 0) (iv.get i)
    root ^ 2 ≤ firstPrimes.getD i.val 0 * 2 ^ 128 ∧ firstPrimes.getD i.val 0 * 2 ^ 128 < (root + 1) ^ 2 := by
  decide +kernel

/-- Settles O49: each table word completes the whole part of its root to the floor that R130 names. -/
theorem tablesAreRootsOfPrimes : Obligations.TablesAreRootsOfPrimes := by
  refine ⟨fun t ht => ?cube, fun i => ?square⟩
  case cube =>
    rw [nth_prime_eq_firstPrimes ht]
    exact ⟨_, (scaledRoot_mod 3 _ _).symm, roundConstants_cube_bounds t ht⟩
  case square =>
    rw [nth_prime_eq_firstPrimes (by omega)]
    exact ⟨_, (scaledRoot_mod 2 _ _).symm, iv_square_bounds i⟩

end Sys2Proof.Machine
end

