-- ==== Sys2Proof/Proofs/Transitions.lean ====
section
/-! PROOF. What a step does with a legal command (R161), that it always answers (R177), and the transition table: the
phase, the cause and the OK bit after each command (R160). -/

namespace Sys2Proof.Machine

/-- Settles O7. -/
theorem stepRunsTheDecodedInstruction : Obligations.StepRunsTheDecodedInstruction :=
  fun _ _ _ _ => step_legal

/-- Settles O10: idle, a reset, or a command, and a command is an instruction's effect. -/
theorem stepAlwaysAnswersNext : Obligations.StepAlwaysAnswersNext := by
  intro s
  cases hi : s.inbox with
  | nil => exact ⟨s, step_idle hi⟩
  | cons m rest =>
    cases m with
    | reset cut => exact ⟨_, step_reset hi⟩
    | command c =>
      obtain ⟨i, hstep⟩ := step_command hi
      rw [hstep]
      exact exec_next i _

/-! ### The transition table -/

/-- `t` is in phase `p` with the given cause, and has answered one response more than `s`, with that phase, that cause
and the given OK bit: a cell of the table of R160. -/
structure Answers (s t : State) (p : Phase) (cause : BitVec 4) (ok : Bool) : Prop where
  phase_eq : t.phase = p
  cause_eq : t.cause = cause
  response : ∃ digest, t.outbox = s.outbox ++ [{ status := statusWord p cause ok, digest := digest }]

theorem refuse_answers {s : State} (hs : s.phase = .fault) : Answers s (refuse s) .fault s.cause false :=
  ⟨hs, rfl, _, by rw [refuse_outbox, hs]⟩

theorem raiseFault_answers (c : FaultCause) (s : State) : Answers s (raiseFault c s) .fault c.code false :=
  ⟨rfl, rfl, _, raiseFault_outbox c s⟩

/-- The column of illegal words (R160, R205). -/
theorem rejectIllegal_answers (s : State) :
    Answers s (rejectIllegal s) .fault (if s.phase = .fault then s.cause else 1#4) false := by
  by_cases hs : s.phase = .fault
  · rw [rejectIllegal_fault hs, if_pos hs]
    exact refuse_answers hs
  · rw [rejectIllegal_live hs, if_neg hs]
    exact raiseFault_answers .illegalCmd s

/-- The columns of UPDATE and FINALIZE, by the effect in READY (R160). -/
theorem whenReady_answers {f : State → State} {s : State} {done : Phase}
    (hf : s.phase = .ready → Answers s (f s) done s.cause true) :
    Answers s (whenReady f s) (phaseAfterUse done s.phase) (causeAfterUse s.phase s.cause)
      (decide (s.phase = .ready)) := by
  obtain ⟨hs, heq⟩ | ⟨hs, heq⟩ | ⟨hs, heq⟩ | ⟨hs, heq⟩ := whenReady_cases f s
  all_goals rw [heq, hs]
  · exact refuse_answers hs
  · exact raiseFault_answers .useBeforeInit s
  · exact raiseFault_answers .useAfterFinalize s
  · exact hf hs

/-- The answer to an UPDATE in READY (R78, R164). -/
theorem updateBytes_response (x : List Byte) {s : State} (hs : s.phase = .ready) :
    (respond true (zeros 64) (updateBytes x s)).outbox = s.outbox ++ [readyResponse s.cause] := by
  rw [respond_outbox, updateBytes_outbox, updateBytes_phase, updateBytes_cause, hs, readyResponse]

theorem updateBytes_answers (x : List Byte) {s : State} (hs : s.phase = .ready) :
    Answers s (respond true (zeros 64) (updateBytes x s)) .ready s.cause true :=
  ⟨by simp [hs], by simp, zeros 64, updateBytes_response x hs⟩

/-- Every instruction follows the table (R160). -/
theorem exec_answers (i : Instr) (s : State) :
    ∃ t, exec i s = .next t ∧ Answers s t (nextPhase i s.phase) (nextCause i s.phase s.cause) (okBit i s.phase) := by
  cases i with
  | status => exact ⟨_, exec_status s, rfl, rfl, _, respond_outbox _ _ s⟩
  | init =>
    by_cases hs : s.phase = .fault
    · refine ⟨_, exec_init_fault hs, ?_⟩
      simpa [nextPhase, nextCause, okBit, hs] using refuse_answers hs
    · refine ⟨_, exec_init_live hs, ?_⟩
      simp only [nextPhase, nextCause, okBit, hs, if_false, ne_eq, not_false_eq_true, decide_true]
      exact ⟨rfl, rfl, _, respond_outbox _ _ (freshContext s)⟩
  | update n data =>
    by_cases hn : n ≤ 8#4
    · refine ⟨_, exec_update_legal hn data s, ?_⟩
      simp only [nextPhase, nextCause, okBit, hn, if_true, decide_true, Bool.true_and]
      exact whenReady_answers (updateBytes_answers (beat n data))
    · refine ⟨_, exec_update_illegal hn data s, ?_⟩
      simp only [nextPhase, nextCause, okBit, hn, if_false, decide_false, Bool.false_and]
      exact rejectIllegal_answers s
  | finalize =>
    exact ⟨_, exec_finalize s, whenReady_answers fun _ => ⟨rfl, rfl, _, finalizeContext_outbox s⟩⟩

/-- Settles O12: an instruction answers its cell of the table, an illegal word that of its column. -/
theorem phaseTransitionsFollowTheTable : Obligations.PhaseTransitionsFollowTheTable := by
  intro s c rest hi
  refine ⟨fun i hd => ?legal, fun e hd => ?illegal⟩
  case legal =>
    obtain ⟨t, hexec, hphase, hcause, digest, hout⟩ := exec_answers i { s with inbox := rest }
    exact ⟨t, _, (step_legal hi hd).trans hexec, hphase, hcause, hout, by rw [hphase, hcause]⟩
  case illegal =>
    obtain ⟨hphase, hcause, digest, hout⟩ := rejectIllegal_answers { s with inbox := rest }
    exact ⟨_, _, step_illegal hi hd, hphase, hcause, hout, by rw [hcause]⟩

end Sys2Proof.Machine
end

