-- ==== Sys2Proof/Proofs/StatusInit.lean ====
section
/-! PROOF. STATUS reports phase and cause and nothing else (R162); INIT makes a fresh context (R163). -/

namespace Sys2Proof.Machine

/-! ### STATUS -/

/-- Settles O17: STATUS is a response alone, so a second one reports the same phase and cause. -/
theorem statusReportsPhaseAndCause : Obligations.StatusReportsPhaseAndCause := by
  refine ⟨exec_status, fun s t u ht hu => ?twice, fun data => ?anyData, ?reset⟩
  case twice =>
    cases ht
    cases hu
    exact ⟨_, respond_outbox _ _ s, by simp⟩
  case anyData => exact (decode_data_irrelevant (by decide) data 0#64).trans (decode_encode (i := .status) rfl)
  case reset => decide

/-- Settles O18: the response is computed from phase and cause. -/
theorem statusLeaksNoContext : Obligations.StatusLeaksNoContext := by
  intro s s' hphase hcause
  exact ⟨_, _, _, exec_status s, exec_status s', respond_outbox _ _ s, by rw [respond_outbox, hphase, hcause]⟩

/-! ### INIT -/

/-- A fresh context does not depend on the context before it (R163). -/
theorem freshContext_freshContext (s : State) : freshContext (freshContext s) = freshContext s := rfl

/-- INIT where INIT has just been answered adds a response and nothing else (R163). -/
theorem exec_init_init {s t u : State} (hs : s.phase ≠ .fault) (ht : exec .init s = .next t)
    (hu : exec .init t = .next u) : u = { t with outbox := u.outbox } := by
  rw [exec_init_live hs] at ht
  cases ht
  rw [exec_init_live (by simp)] at hu
  cases hu
  rfl

theorem statusWord_ready_ok : statusWord .ready 0#4 true = 0x00000101#32 := by decide

/-- Settles O20. -/
theorem initCreatesFreshContext : Obligations.InitCreatesFreshContext := by
  refine ⟨fun s hs => exec_init_live hs, fun s hs => ?refused, fun s t u hs ht hu => exec_init_init hs ht hu,
    Memory.read_zero, fun data => ?anyData, fun s hinv hs => ⟨_, exec_init_live hs, ?word⟩⟩
  case refused => rw [exec_init_fault hs, ← hs]; rfl
  case anyData => exact (decode_data_irrelevant (by decide) data 0#64).trans (decode_encode (i := .init) rfl)
  case word =>
    rw [respond_outbox, freshContext_phase, freshContext_cause, hinv.cause_eq_zero hs, statusWord_ready_ok]
    rfl

end Sys2Proof.Machine
end

