-- ==== Sys2Proof/Proofs/UpdateEffect.lean ====
section
/-! PROOF. UPDATE in READY (R164 to R166, R169): the counter, the bytes it stores and those it leaves, and the one
compression of a beat that completes a block. -/

namespace Sys2Proof.Machine

/-! ### The counter -/

/-- Settles O25: the sum in general, and the rule's corner cases and example by evaluation. -/
theorem addCountIsModularAddition : Obligations.AddCountIsModularAddition := by
  refine ⟨addCount_cnt, fun s hlo => ?carry, fun s hhi hlo => ?wrap, fun s hhi hlo => ?three⟩
  case carry => simp [hlo]
  case wrap => rw [addCount_cnt, State.cnt, hhi, hlo]; decide
  case three => simp [hhi, hlo]

/-- The counter does not decrease while it does not wrap (R24, R25). -/
theorem cnt_le_add {cnt : BitVec 128} {k : Nat} (h : cnt.toNat + k < 2 ^ 128) : cnt ≤ cnt + BitVec.ofNat 128 k := by
  rw [BitVec.le_def, BitVec.toNat_add, BitVec.toNat_ofNat]
  omega

/-! ### No bytes -/

theorem addCount_zero (s : State) : addCount 0 s = s := by
  have hcarry : s.cntLo.toNat / 2 ^ 64 = 0 := Nat.div_eq_of_lt s.cntLo.isLt
  simp only [addCount, Nat.mul_zero, Nat.add_zero, hcarry, BitVec.ofNat_toNat, BitVec.setWidth_eq, BitVec.add_zero]

theorem beat_zero (data : Word) : beat 0#4 data = [] := rfl

theorem updateBytes_nil (s : State) : updateBytes [] s = s := by
  rw [updateBytes_append (by simp [s.blen.isLt]), List.length_nil, addCount_zero]
  simp [appendBytes, Memory.writeBytes]

/-- Settles O23: a beat of no bytes delivers none. -/
theorem emptyUpdateChangesNothing : Obligations.EmptyUpdateChangesNothing := by
  intro data s hs
  rw [exec_update_ready (by decide) data hs, beat_zero, updateBytes_nil, ← hs]
  rfl

/-! ### Reading the beat -/

/-- Lane `k` of a beat (R74). -/
theorem getD_beat {n : BitVec 4} (h : n ≤ 8#4) (data : Word) {k : Nat} (hk : k < n.toNat) :
    (beat n data).getD k 0#8 = wordByte data k := by
  rw [beat_eq_map h, List.getD_eq_getElem _ _ (by simpa using hk), List.getElem_map, List.getElem_range]

/-! ### Below a full block -/

/-- Bytes that do not complete a block stand behind the message bytes, and the other offsets read as before (R165). -/
theorem read_updateBytes_append {x : List Byte} {s : State} (hwf : s.buf.wf = true)
    (h : s.blen.toNat + x.length < 128) (o : Offset) :
    (updateBytes x s).buf.read o =
      if s.blen ≤ o ∧ o.toNat < s.blen.toNat + x.length then x.getD (o.toNat - s.blen.toNat) 0#8
      else s.buf.read o := by
  rw [updateBytes_append h, appendBytes_buf, addCount_buf, addCount_blen, Memory.read_writeBytes x _ _ hwf h.le]

/-- Settles O21. -/
theorem updateAppendsToBuffer : Obligations.UpdateAppendsToBuffer := by
  intro n data s hs hwf hn hlt
  have hlen : (beat n data).length = n.toNat := length_beat hn data
  have hlt' : s.blen.toNat + (beat n data).length < 128 := by rwa [hlen]
  have hcnt := updateBytes_cnt (beat n data) s
  obtain ⟨-, -, hblen⟩ := updateBytes_spec (beat n data) hwf
  rw [hlen] at hcnt hblen
  refine ⟨_, exec_update_ready hn data hs, by simp [hs], by simp, ?h, hcnt, fun hwrap => ?grows, ?blen, fun o => ?read,
    by simp, updateBytes_response _ hs⟩
  case h => rw [respond_h, updateBytes_append hlt', appendBytes_h, addCount_h]
  case grows => exact (cnt_le_add hwrap).trans_eq hcnt.symm
  case blen => rwa [Nat.mod_eq_of_lt hlt] at hblen
  case read =>
    rw [respond_buf, read_updateBytes_append hwf hlt', hlen]
    refine ite_congr rfl (fun ⟨hle, hlt⟩ => ?_) fun _ => rfl
    have hle' : s.blen.toNat ≤ o.toNat := hle
    rw [getD_beat hn data (by omega), wordByte]

/-! ### A completed block -/

theorem compressBlocks_one (h : Chain) (x : List Byte) :
    compressBlocks 1 h x = (compress h (x.take 128), x.drop 128) := rfl

/-- Bytes that complete one block: it is compressed, and the rest of them is what the buffer holds (R165). -/
theorem updateBytes_oneBlock {x : List Byte} {s : State} (hwf : s.buf.wf = true) (hx : x.length ≤ 128)
    (h : 128 ≤ s.blen.toNat + x.length) :
    (updateBytes x s).h = compress s.h (s.pending ++ x.take (128 - s.blen.toNat)) ∧
      (updateBytes x s).pending = x.drop (128 - s.blen.toNat) := by
  have hb : s.blen.toNat < 128 := s.blen.isLt
  have hone : (s.pending ++ x).length / 128 = 1 := by
    rw [List.length_append, length_pending]
    omega
  obtain ⟨hh, hpending, -⟩ := updateBytes_spec x hwf
  have hfull : s.pending.length ≤ 128 := by rw [length_pending]; omega
  rw [hone, compressBlocks_one] at hh hpending
  rw [List.take_append, List.take_of_length_le hfull, length_pending] at hh
  rw [List.drop_append, List.drop_of_length_le hfull, List.nil_append, length_pending] at hpending
  exact ⟨hh, hpending⟩

/-- Settles O22. -/
theorem updateCompressesFullBlock : Obligations.UpdateCompressesFullBlock := by
  intro n data s hs hwf hn hge
  have hn8 : n.toNat ≤ 8 := hn
  have hlen : (beat n data).length = n.toNat := length_beat hn data
  have hcnt := updateBytes_cnt (beat n data) s
  obtain ⟨-, -, hblen⟩ := updateBytes_spec (beat n data) hwf
  obtain ⟨hh, hpending⟩ := updateBytes_oneBlock (x := beat n data) hwf (by omega) (by omega)
  rw [hlen] at hcnt hblen
  have hblen' : (updateBytes (beat n data) s).blen.toNat = s.blen.toNat + n.toNat - 128 := by
    have hb := s.blen.isLt
    omega
  refine ⟨_, exec_update_ready hn data hs, by simp [hs], by simp, hh, hcnt, hblen', fun o ho => ?read, by simp,
    updateBytes_response _ hs⟩
  have ho' : o.toNat < s.blen.toNat + n.toNat - 128 := hblen' ▸ ho
  calc (updateBytes (beat n data) s).buf.read o
      = ((beat n data).drop (128 - s.blen.toNat)).getD o.toNat 0#8 := by
        rw [← hpending, getD_pending (updateBytes (beat n data) s) o ho]
    _ = (beat n data).getD (o.toNat + (128 - s.blen.toNat)) 0#8 := by simp [List.getD_eq_getElem?_getD, Nat.add_comm]
    _ = wordByte data (o.toNat + (128 - s.blen.toNat)) := getD_beat hn data (by omega)

/-! ### The bytes it leaves -/

/-- UpdateBytes stores no byte but from the length on, and from offset 0 on once a block is complete (R165). -/
theorem read_updateBytes_frame (x : List Byte) {s : State} (hwf : s.buf.wf = true) {o : Offset}
    (hbehind : ¬(s.blen ≤ o ∧ o.toNat < s.blen.toNat + x.length))
    (hrest : ¬(o.toNat + 128 < s.blen.toNat + x.length)) : (updateBytes x s).buf.read o = s.buf.read o := by
  by_cases hlt : s.blen.toNat + x.length < 128
  · rw [read_updateBytes_append hwf hlt, if_neg hbehind]
  · have hb : s.blen.toNat < 128 := s.blen.isLt
    have hzero : (0#7).toNat = 0 := rfl
    rw [updateBytes_fill (by omega), fillAndCompress_buf, compressBlocks_snd, addCount_buf, addCount_blen,
      Memory.read_writeBytes _ _ _ (Memory.wf_writeBytes _ _ hwf) (by simp only [hzero, List.length_drop]; omega),
      if_neg, Memory.read_writeBytes _ _ _ hwf (by simp only [List.length_take]; omega), if_neg]
    · rintro ⟨hle, hlt⟩
      rw [List.length_take] at hlt
      exact hbehind ⟨hle, by omega⟩
    · rintro ⟨-, hlt⟩
      simp only [hzero, List.length_drop] at hlt
      omega

/-- Settles O24. -/
theorem updateStoresOnlyTheBeat : Obligations.UpdateStoresOnlyTheBeat := by
  intro n data s t hs hwf hn hexec o hbehind hrest
  rw [exec_update_ready hn data hs] at hexec
  cases hexec
  rw [← length_beat hn data] at hbehind hrest
  exact read_updateBytes_frame _ hwf hbehind hrest

/-! ### The compression count -/

theorem compressions_update {n : BitVec 4} (hn : n ≤ 8#4) (data : Word) (blen : Offset) :
    compressions (.update n data) .ready blen = (blen.toNat + n.toNat) / 128 := if_pos ⟨hn, rfl⟩

/-- Settles O26: the beat completes a block or it does not. -/
theorem updateCompressionCount : Obligations.UpdateCompressionCount := by
  intro n data s hs hwf hn
  have hn8 : n.toNat ≤ 8 := hn
  have hb := s.blen.isLt
  have hlen : (beat n data).length = n.toNat := length_beat hn data
  obtain ⟨-, -, hblen⟩ := updateBytes_spec (beat n data) hwf
  refine ⟨_, exec_update_ready hn data hs, by rw [respond_blen, hblen, hlen], ?_⟩
  rw [hs, compressions_update hn, respond_h]
  by_cases hlt : s.blen.toNat + n.toNat < 128
  · refine .inl ⟨Nat.div_eq_of_lt hlt, ?_⟩
    rw [updateBytes_append (by rwa [hlen]), appendBytes_h, addCount_h]
  · obtain ⟨hh, -⟩ := updateBytes_oneBlock (x := beat n data) hwf (by omega) (by omega)
    exact .inr ⟨by omega, hh⟩

end Sys2Proof.Machine
end

