-- ==== Sys2Proof/Proofs/Concatenation.lean ====
section
/-! PROOF. However a message is split into pieces, UpdateBytes leaves the same context (R167), byte by byte too (R168),
and the digest is that of the whole message (R176). -/

namespace Sys2Proof.Machine

variable {s t u : State}

/-! ### The same context -/

theorem SameContext.refl (s : State) : SameContext s s := ⟨rfl, rfl, rfl, rfl, fun _ _ => rfl⟩

theorem SameContext.symm (h : SameContext s t) : SameContext t s := by
  obtain ⟨hh, hhi, hlo, hpending⟩ := sameContext_iff.1 h
  exact sameContext_iff.2 ⟨hh.symm, hhi.symm, hlo.symm, hpending.symm⟩

theorem SameContext.trans (h : SameContext s t) (h' : SameContext t u) : SameContext s u := by
  obtain ⟨hh, hhi, hlo, hpending⟩ := sameContext_iff.1 h
  obtain ⟨hh', hhi', hlo', hpending'⟩ := sameContext_iff.1 h'
  exact sameContext_iff.2 ⟨hh.trans hh', hhi.trans hhi', hlo.trans hlo', hpending.trans hpending'⟩

/-! ### Pieces -/

/-- `UpdateBytes(a); UpdateBytes(b)` is `UpdateBytes(a ‖ b)`: the blocks of the buffered bytes, `a` and `b` are those
of the first two, then those of what is left of them followed by `b` (R167). -/
theorem updateBytes_updateBytes (hwf : s.buf.wf = true) (a b : List Byte) :
    SameContext (updateBytes b (updateBytes a s)) (updateBytes (a ++ b) s) := by
  obtain ⟨hh, hpending, -⟩ := updateBytes_spec a hwf
  obtain ⟨hh₂, hpending₂, -⟩ := updateBytes_spec b (updateBytes_wf a hwf)
  obtain ⟨hhAll, hpendingAll, -⟩ := updateBytes_spec (a ++ b) hwf
  have hblocks := compressBlocks_all_append s.h (s.pending ++ a) b
  rw [List.append_assoc, ← hh, ← hpending] at hblocks
  have hcount := addCount_addCount a.length b.length s
  refine sameContext_iff.2 ⟨?h, ?cntHi, ?cntLo, ?pending⟩
  case h => rw [hh₂, hhAll, hblocks]
  case cntHi => simpa using congrArg State.cntHi hcount
  case cntLo => simpa using congrArg State.cntLo hcount
  case pending => rw [hpending₂, hpendingAll, hblocks]

/-- Pieces delivered to a context that stands for `x`: the digest is that of `x` and the pieces, concatenated (R33,
R167). -/
theorem Represents.digest_foldl {x : List Byte} (h : Represents x s) (hwf : s.buf.wf = true)
    (pieces : List (List Byte)) :
    digestBytes (finishHash (pieces.foldl (fun s y => Machine.updateBytes y s) s)).h = sha512 (x ++ pieces.flatten) := by
  induction pieces generalizing s x with
  | nil => simpa using h.digest_eq_sha512 hwf
  | cons y pieces ih => simpa using ih (h.updateBytes hwf y) (updateBytes_wf y hwf)

/-- Settles O27: a fresh context stands for the empty message. -/
theorem concatenationLaw : Obligations.ConcatenationLaw :=
  ⟨fun _ a b _ hwf => updateBytes_updateBytes hwf a b,
    (represents_freshContext State.reset).digest_foldl rfl⟩

/-! ### One byte at a time -/

/-- `AppendByte(b)` is UpdateBytes of the one byte `b` (R168). -/
theorem appendByte_eq_updateBytes (s : State) (b : Byte) : appendByte s b = updateBytes [b] s := by
  by_cases hlast : s.blen = 127#7
  · rw [appendByte, if_pos hlast, updateBytes_fill (by simp [hlast])]
    simp [fillAndCompress, compressBuffer, compressBlocks, Memory.writeBytes, hlast]
  · have hlt : s.blen.toNat + [b].length < 128 := by rw [List.length_singleton]; bv_omega
    rw [appendByte, if_neg hlast, updateBytes_append hlt]
    simp [appendBytes, Memory.writeBytes]

/-- Settles O28: each byte is a piece of its own. -/
theorem byteSerialEquivalence : Obligations.ByteSerialEquivalence := by
  intro s x hwf
  induction x generalizing s with
  | nil => rw [updateBytes_nil]; exact .refl s
  | cons b x ih =>
    have hwf' := updateBytes_wf [b] hwf
    rw [List.foldl_cons, appendByte_eq_updateBytes]
    exact (updateBytes_updateBytes hwf [b] x).symm.trans (ih _ hwf')

/-! ### The one-shot digest -/

/-- Settles O52: a fresh context with `x` delivered stands for `x`. -/
theorem streamingEqualsOneShot : Obligations.StreamingEqualsOneShot := by
  intro x
  have hx : Represents x (updateBytes x (freshContext State.reset)) :=
    (represents_freshContext State.reset).updateBytes rfl x
  exact hx.digest_eq (updateBytes_wf x rfl)

end Sys2Proof.Machine
end

