-- ==== Sys2Proof/Proofs/FinalizeEffect.lean ====
section
/-! PROOF. FINALIZE: padding and the length field in one block or two (R171, R172, R175), the digest (R173), and the
scrub (R174). -/

namespace Sys2Proof.Machine

/-! ### The digest's bytes -/

/-- Byte `k` of the `i`-th word of a row of encoded words. -/
theorem getElem?_flatMap_enc64 (l : List Word) (i : Nat) {k : Nat} (hk : k < 8) :
    (l.flatMap enc64)[8 * i + k]? = l[i]?.map fun v => wordByte v k := by
  induction l generalizing i with
  | nil => simp
  | cons v l ih =>
    rw [List.flatMap_cons]
    cases i with
    | zero =>
      rw [List.getElem?_append_left (by rw [length_enc64]; omega), Nat.mul_zero, Nat.zero_add, getElem?_enc64 v hk]
      rfl
    | succ i =>
      rw [List.getElem?_append_right (by rw [length_enc64]; omega), length_enc64,
        show 8 * (i + 1) + k - 8 = 8 * i + k by omega, ih, List.getElem?_cons_succ]

theorem Chain.getElem?_toList (c : Chain) (i : Fin 8) : c.toList[i.val]? = some (c.get i) := by
  fin_cases i <;> rfl

theorem length_digestBytes (h : Chain) : (digestBytes h).length = 64 := by simp [digestBytes, Chain.toList]

/-- Settles O30. -/
theorem digestIsBigEndianChain : Obligations.DigestIsBigEndianChain := by
  refine fun h => ⟨length_digestBytes h, fun i k hk => ?_⟩
  rw [digestBytes, getElem?_flatMap_enc64 _ _ hk, Chain.getElem?_toList, Option.map_some, wordByte]

/-! ### The whole effect -/

/-- Settles O29: the digest is that of the chaining state after the padded blocks, and the rest is the scrub. -/
theorem finalizePadsCompressesAndScrubs : Obligations.FinalizePadsCompressesAndScrubs := by
  intro s hs hwf
  rw [exec_finalize_ready hs, ← finishHash_h hwf]
  rfl

/-- But for the responses, FINALIZE leaves nothing but the cause and the moves to take (R174). -/
theorem finalizeContext_but_outbox (s : State) :
    { finalizeContext s with outbox := [] } =
      { State.reset with phase := .finalized, cause := s.cause, inbox := s.inbox } := rfl

/-- Settles O31. -/
theorem finalizeErasesTheMessage : Obligations.FinalizeErasesTheMessage := by
  intro s s' hs hs' hcause hin
  refine ⟨_, _, _, _, exec_finalize_ready hs, exec_finalize_ready hs', finalizeContext_outbox s,
    finalizeContext_outbox s', by rw [hcause], ?_⟩
  rw [finalizeContext_but_outbox, finalizeContext_but_outbox, hcause, hin]

/-! ### The compression count -/

theorem compressions_finalize (blen : Offset) :
    compressions .finalize .ready blen = if blen.toNat ≤ 111 then 1 else 2 := rfl

/-- The padded tail is whole blocks, as many as FINALIZE's compressions (R171, R175). -/
theorem length_paddedTail_eq_compressions (s : State) :
    (paddedTail s).length = 128 * compressions .finalize .ready s.blen := by
  rw [length_paddedTail, compressions_finalize]
  split <;> rfl

/-- Settles O60: FINALIZE compresses the blocks of the padded tail. -/
theorem finalizeCompressionCount : Obligations.FinalizeCompressionCount := by
  intro s hs hwf
  have hlen := length_paddedTail_eq_compressions s
  rw [hs, compressedBlocks_finalize hs, length_fullBlocks, hlen, Nat.mul_div_cancel_left _ (by decide)]
  refine ⟨compressions_finalize _, rfl, fun b hb => length_of_mem_fullBlocks hb, flatten_fullBlocks _ _ hlen, _,
    exec_finalize_ready hs, ?_⟩
  rw [finalizeContext_outbox, finishHash_h_eq_foldl hwf]

end Sys2Proof.Machine
end

