-- ==== Sys2Proof/Proofs/Exceptions.lean ====
section
/-! PROOF. The faults (R201 to R210): what raises each, that entry has the same precise effect for all of them, and that
only hardware reset leaves FAULT. Also the engines of a platform at reset (R214). -/

namespace Sys2Proof.Machine

/-! ### What raises a fault (R202 to R204) -/

/-- Fault entry, field by field (R206). -/
theorem raiseFault_eq (c : FaultCause) (s : State) :
    raiseFault c s =
      { phase := .fault, cause := c.code, h := Chain.zero, cntHi := 0#64, cntLo := 0#64, buf := Memory.zero,
        blen := 0#7, inbox := s.inbox,
        outbox := s.outbox ++ [{ status := statusWord .fault c.code false, digest := zeros 64 }] } := rfl

/-- FINALIZE and every UPDATE of a legal NB, 0 included, pass the phase check before they do anything else (R205). -/
theorem exec_eq_whenReady {i : Instr} (hi : i = .finalize ∨ ∃ n data, n ≤ 8#4 ∧ i = .update n data) (s : State) :
    ∃ effect, exec i s = .next (whenReady effect s) := by
  obtain rfl | ⟨n, data, hn, rfl⟩ := hi
  · exact ⟨_, exec_finalize s⟩
  · exact ⟨_, exec_update_legal hn data s⟩

/-- Settles O33. -/
theorem useBeforeInitFaults : Obligations.UseBeforeInitFaults := by
  intro i s hi hs
  obtain ⟨effect, hexec⟩ := exec_eq_whenReady hi s
  rw [hexec, whenReady_uninit hs, raiseFault_eq, FaultCause.code, statusWord_useBeforeInit]

/-- Settles O34. -/
theorem useAfterFinalizeFaults : Obligations.UseAfterFinalizeFaults := by
  intro i s hi hs
  obtain ⟨effect, hexec⟩ := exec_eq_whenReady hi s
  rw [hexec, whenReady_finalized hs, raiseFault_eq, FaultCause.code, statusWord_useAfterFinalize]

/-- Settles O35: with such an NB `exec` never comes to the phase check. -/
theorem illegalCountComesFirst : Obligations.IllegalCountComesFirst := by
  intro n data s hn hs
  rw [exec_update_illegal (BitVec.not_le.2 hn), rejectIllegal_live hs, raiseFault_eq, FaultCause.code,
    statusWord_illegalCmd]

/-! ### Fault entry (R206, R207) -/

theorem FaultCause.code_cases (c : FaultCause) : c.code = 1#4 ∨ c.code = 2#4 ∨ c.code = 3#4 := by cases c <;> decide

/-- An instruction enters FAULT by fault entry alone: its other effects end in the phase they began in, in READY or in
FINALIZED. -/
theorem exec_enters_fault {i : Instr} {s t : State} (h : exec i s = .next t) (hs : s.phase ≠ .fault)
    (ht : t.phase = .fault) : ∃ c, t = raiseFault c s := by
  obtain ⟨hfault, -, -⟩ | ⟨-, hraise⟩ | ⟨-, rfl⟩ | ⟨-, -, rfl⟩ | ⟨n, data, -, -, -, rfl⟩ | ⟨-, -, rfl⟩ := exec_cases h
  · exact absurd hfault hs
  · exact hraise
  · exact absurd ht hs
  · simp at ht
  · simp [hs] at ht
  · simp at ht

/-- A step enters FAULT by taking a command and raising a fault. -/
theorem step_enters_fault {s t : State} (h : step s = .next t) (hs : s.phase ≠ .fault) (ht : t.phase = .fault) :
    ∃ cmd rest c, s.inbox = .command cmd :: rest ∧ t = raiseFault c { s with inbox := rest } := by
  obtain ⟨-, rfl⟩ | ⟨cut, rest, -, rfl⟩ | ⟨cmd, rest, e, hi, -, rfl⟩ | ⟨cmd, rest, i, hi, -, he⟩ := step_cases h
  · exact absurd ht hs
  · simp at ht
  · exact ⟨cmd, rest, .illegalCmd, hi, rejectIllegal_live hs⟩
  · obtain ⟨c, rfl⟩ := exec_enters_fault he hs ht
    exact ⟨cmd, rest, c, hi, rfl⟩

/-- Settles O36: the step is a fault entry, whose effect is one for all causes. -/
theorem faultEntryIsPrecise : Obligations.FaultEntryIsPrecise := by
  intro s t hstep hs ht
  obtain ⟨cmd, rest, c, hi, rfl⟩ := step_enters_fault hstep hs ht
  exact ⟨raiseFault_cleared c _, c.code_cases, raiseFault_outbox c _, cmd, hi⟩

/-! ### In FAULT (R208 to R210) -/

/-- In FAULT every instruction is a response alone, OK only for STATUS (R208). -/
theorem exec_in_fault (i : Instr) {s : State} (hs : s.phase = .fault) :
    exec i s = .next (respond (decide (i = .status)) (zeros 64) s) := by
  obtain ⟨t, hexec⟩ := exec_next i s
  rw [hexec]
  obtain ⟨-, hi, rfl⟩ | ⟨hlive, -⟩ | ⟨rfl, rfl⟩ | ⟨-, hlive, -⟩ | ⟨n, data, -, -, hready, -⟩ | ⟨-, hready, -⟩ :=
    exec_cases hexec
  · rw [decide_eq_false hi, refuse]
  · exact absurd hs hlive
  · rfl
  · exact absurd hs hlive
  · simp [hs] at hready
  · simp [hs] at hready

/-- STATUS is the word 0, with any DATA (R72, R74). -/
theorem decode_eq_status_iff (c : Command) : decode c = .ok .status ↔ c.cmd = 0#32 := by
  refine ⟨fun hd => (cmd_eq_of_decode hd).2, fun hc => ?_⟩
  calc decode c = decode { cmd := 0#32, data := c.data } := by rw [← hc]
    _ = decode (encode .status) := decode_data_irrelevant (by decide) _ _
    _ = .ok .status := decode_encode rfl

/-- In FAULT every command is a response alone, OK only for the word of STATUS (R208). -/
theorem step_in_fault {s : State} {c : Command} {rest : List HostMove} (hs : s.phase = .fault)
    (hi : s.inbox = .command c :: rest) :
    step s = .next (respond (decide (c.cmd = 0#32)) (zeros 64) { s with inbox := rest }) := by
  have hstatus := decode_eq_status_iff c
  cases hd : decode c with
  | ok i =>
    rw [hd, Except.ok.injEq] at hstatus
    rw [step_legal hi hd, exec_in_fault i (s := { s with inbox := rest }) hs, decide_eq_decide.2 hstatus]
  | error e =>
    have hc : c.cmd ≠ 0#32 := mt hstatus.2 (by simp [hd])
    rw [step_illegal hi hd, rejectIllegal_fault (s := { s with inbox := rest }) hs, decide_eq_false hc, refuse]

/-- Settles O37. -/
theorem faultPhaseRefusesCommands : Obligations.FaultPhaseRefusesCommands := by
  intro s c rest hs hi
  rw [step_in_fault hs hi, ← hs]
  rfl

/-- Settles O38, by the move taken: none, a reset, or a command, which is a response alone. -/
theorem onlyResetLeavesFault : Obligations.OnlyResetLeavesFault := by
  intro s t hstep hs
  cases hi : s.inbox with
  | nil =>
    rw [step_idle hi] at hstep
    cases hstep
    exact .inl ⟨hs, rfl⟩
  | cons m rest =>
    cases m with
    | reset cut =>
      rw [step_reset hi] at hstep
      cases hstep
      exact .inr ⟨rfl, rfl, cut, rfl⟩
    | command c =>
      rw [step_in_fault hs hi] at hstep
      cases hstep
      exact .inl ⟨hs, rfl⟩

/-! ### The engines of a platform (R214) -/

/-- Settles O58. -/
theorem enginesStartAtReset : Obligations.EnginesStartAtReset := by
  refine ⟨?atLeastOne, fun s hs => ?atReset⟩
  case atLeastOne =>
    rw [Platform.reset, List.length_replicate, Config.numEngines]
    exact Nat.succ_pos _
  case atReset =>
    obtain rfl := List.eq_of_mem_replicate hs
    exact ⟨rfl, rfl⟩

end Sys2Proof.Machine
end

