-- ==== Sys2Proof/Proofs/ResetAndLatency.lean ====
section
/-! PROOF. Hardware reset (R34, R230, R231), and that the compressions and the latency of a command depend on its word, the
phase and the buffer's length, never on message bytes or counter (R169, R175, R238, R239). -/

namespace Sys2Proof.Machine

/-! ### Hardware reset -/

/-- Hardware reset, field by field (R34): the reset values, with the host's later moves and the earlier responses. -/
theorem hardwareReset_eq (s : State) :
    hardwareReset s =
      { phase := .uninit, cause := 0#4, h := Chain.zero, cntHi := 0#64, cntLo := 0#64, buf := Memory.zero, blen := 0#7,
        inbox := s.inbox, outbox := s.outbox } := rfl

/-- Settles O9: the step that takes a reset does not look at the command the reset cuts off. -/
theorem hardwareResetResets : Obligations.HardwareResetResets := by
  intro s cut rest hi
  rw [step_reset hi, hardwareReset_eq]

/-! ### The blocks a command compresses -/

theorem length_pending_beat {n : BitVec 4} (hn : n ≤ 8#4) (data : Word) (s : State) :
    (s.pending ++ beat n data).length = s.blen.toNat + n.toNat := by
  rw [List.length_append, length_pending, length_beat hn]

/-- There are as many blocks as the count computed without their bytes says (R169, R175). -/
theorem length_compressedBlocks (i : Instr) (s : State) :
    (compressedBlocks i s).length = compressions i s.phase s.blen := by
  cases i with
  | status => rfl
  | init => rfl
  | update n data =>
    by_cases h : n ≤ 8#4 ∧ s.phase = .ready
    · obtain ⟨hn, hs⟩ := h
      rw [compressedBlocks_update hn hs, length_fullBlocks, length_pending_beat hn, hs, compressions_update hn]
    · rw [compressedBlocks, compressions, if_neg h, if_neg h, List.length_nil]
  | finalize =>
    by_cases hs : s.phase = .ready
    · rw [compressedBlocks_finalize hs, length_fullBlocks, length_paddedTail_eq_compressions, hs,
        Nat.mul_div_cancel_left _ (by decide)]
    · rw [compressedBlocks, compressions, if_neg hs, if_neg hs, List.length_nil]

/-- UPDATE compresses the blocks of the buffered bytes and the beat, in order (R165). -/
theorem exec_update_h {n : BitVec 4} {data : Word} {s t : State} (hwf : s.buf.wf = true) (hs : s.phase = .ready)
    (hn : n ≤ 8#4) (h : exec (.update n data) s = .next t) :
    t.h = (compressedBlocks (.update n data) s).foldl compress s.h := by
  rw [exec_update_ready hn data hs] at h
  cases h
  obtain ⟨hh, -, -⟩ := updateBytes_spec (beat n data) hwf
  rw [respond_h, hh, compressBlocks_fst_eq_foldl _ _ _ rfl, compressedBlocks_update hn hs]

/-! ### What the compressions and the latency of a command depend on -/

/-- Only an UPDATE's DATA is decoded, and its value does not bear on the count (R169, R239). -/
theorem commandCompressions_data (w : HalfWord) (data data' : Word) (s : State) :
    commandCompressions { cmd := w, data := data } s = commandCompressions { cmd := w, data := data' } s := by
  by_cases hop : opField w = 2#4
  · simp only [commandCompressions, decode, hop]
    split_ifs <;> rfl
  · rw [commandCompressions, decode_data_irrelevant hop data data', commandCompressions]

/-- The count is computed from the command word, the phase and the length. -/
theorem commandCompressions_congr {c c' : Command} {s s' : State} (hcmd : c.cmd = c'.cmd) (hphase : s.phase = s'.phase)
    (hblen : s.blen = s'.blen) : commandCompressions c s = commandCompressions c' s' := by
  calc commandCompressions c s
      = commandCompressions { cmd := c.cmd, data := c'.data } s := commandCompressions_data _ _ _ _
    _ = commandCompressions c' s := by rw [hcmd]
    _ = commandCompressions c' s' := by rw [commandCompressions, commandCompressions, hphase, hblen]

theorem commandLatency_congr {c c' : Command} {s s' : State} (hop : opField c.cmd = opField c'.cmd)
    (hnb : nbField c.cmd = nbField c'.cmd) (hphase : s.phase = s'.phase)
    (hcount : commandCompressions c s = commandCompressions c' s') : commandLatency c s = commandLatency c' s' := by
  rw [commandLatency, commandLatency, hop, hnb, hphase, hcount]

/-! ### The parameters of R238 -/

/-- The latency of a well-formed instruction's command is taken at the number of blocks the instruction compresses. -/
theorem commandLatency_encode {i : Instr} (h : i.wellFormed = true) (s : State) :
    commandLatency (encode i) s =
      latencyParameter (opField (encode i).cmd) (nbField (encode i).cmd) s.phase (compressedBlocks i s).length := by
  rw [commandLatency, commandCompressions, decode_encode h, length_compressedBlocks]

theorem commandLatency_status (s : State) : commandLatency (encode .status) s = Config.latStatus s.phase.code := by
  rw [commandLatency_encode rfl]
  rfl

theorem commandLatency_init (s : State) : commandLatency (encode .init) s = Config.latInit s.phase.code := by
  rw [commandLatency_encode rfl]
  rfl

theorem commandLatency_update {n : BitVec 4} (hn : n ≤ 8#4) (data : Word) (s : State) :
    commandLatency (encode (.update n data)) s =
      Config.latUpdate s.phase.code n (compressedBlocks (.update n data) s).length := by
  obtain ⟨hop, -, hnb, -⟩ := updateWord_fields n
  have hwf : (Instr.update n data).wellFormed = true := decide_eq_true hn
  rw [commandLatency_encode hwf, encode, hop, hnb, latencyParameter, if_pos ⟨rfl, hn⟩]

theorem commandLatency_finalize (s : State) :
    commandLatency (encode .finalize) s =
      Config.latFinalize s.phase.code (compressedBlocks .finalize s).length := by
  rw [commandLatency_encode rfl]
  rfl

/-- Settles O59. -/
theorem latencyIsDataIndependent : Obligations.LatencyIsDataIndependent := by
  refine ⟨fun _ _ _ _ => commandLatency_congr, fun c c' s s' hcmd hphase hblen => ?sameWord,
    fun n data s t hwf hs hn hexec => ⟨exec_update_h hwf hs hn hexec, fun b hb => ?blockLength⟩, length_compressedBlocks,
    fun n data s hn => ⟨commandLatency_status s, commandLatency_init s, commandLatency_update hn data s,
      commandLatency_finalize s⟩⟩
  case sameWord =>
    exact commandLatency_congr (congrArg opField hcmd) (congrArg nbField hcmd) hphase
      (commandCompressions_congr hcmd hphase hblen)
  case blockLength =>
    rw [compressedBlocks_update hn hs] at hb
    exact length_of_mem_fullBlocks hb

end Sys2Proof.Machine
end
